-- ==== Sys2Proof/Word.lean ====
section
/-! DEFINITION. The one word type of the hardware: the byte (00_scope.md R11). -/

namespace Sys2Proof

/-- A byte: a natural number in 0..255, bit 0 the least significant (R11).  Every datum the core moves is
one byte (R42); lengths, indices and capacities are plain natural numbers with no width (R9, R17). -/
abbrev Byte := BitVec 8

end Sys2Proof
end

