-- ==== Sys2Proof/Config.lean ====
section
/-! DEFINITION. What an implementation fixes (00_scope.md R8) and the free values the spec leaves open
(93_implementation_defined.md U3, U10, U13).  `MAX_LEN` (R9), the one parameter the spec leaves to the
model's user, is the field `maxLen` of `State`: see notes/assumptions/2.md. -/

namespace Sys2Proof.Config

/-- `TERM`, the reserved terminator value (R8). -/
@[simp] abbrev term : Byte := 0x00#8

/-- `CODE_MIN`, the least legal length byte (R8). -/
@[simp] abbrev codeMin : Byte := 0x01#8

/-- `CODE_FULL`, the length byte of a full block and the counter value that closes a block (R8). -/
@[simp] abbrev codeFull : Byte := 0xFF#8

/-- `FULL_DATA`, the number of data bytes of a full block (R8). -/
@[simp] abbrev fullData : Nat := 254

/-- `CNT_INIT`, the encoder's counter at the start of every block (R8). -/
@[simp] abbrev cntInit : Byte := 0x01#8

/-- A byte the spec leaves open: what a failed DECODE leaves in its output range (R124, decision D9), what
a reset during an operation leaves in the writable range (R138, D14) and the 8-bit working registers
after a reset event (R38, U13).  The argument is the number of the draw; nothing constrains the value. -/
opaque freeByte : Nat → Byte

/-- A length or index register the spec leaves open after a reset event (R38, U13), by draw number. -/
opaque freeNat : Nat → Nat

/-- A one-bit register the spec leaves open after a reset event (R38, U13), by draw number. -/
opaque freeBit : Nat → Bool

end Sys2Proof.Config
end

