-- ==== Sys2Proof/Syntax.lean ====
section
/-! DEFINITION. The rows of the opcode table as one inductive, and what selects a row. -/

namespace Sys2Proof

/-- The two units of the core (10_state.md R14). -/
inductive UnitId
  | enc
  | dec
  deriving DecidableEq, Repr

/-- One constructor per row of spec/opcode_table.json (30_encoding.md R76). -/
inductive Instr
  /-- `ENCODE` (R78): the whole encode operation over `ENC.IN[0 : len]`, output capacity `cap`. -/
  | encode (len cap : Nat)
  /-- `DECODE` (R93): the whole decode operation over `DEC.IN[0 : len]`, output capacity `cap`. -/
  | decode (len cap : Nat)
  /-- `BLK.ILLEGAL` (R97): the length byte 0x00. -/
  | blkIllegal
  /-- `BLK.EMPTY` (R98): the length byte 0x01. -/
  | blkEmpty
  /-- `BLK.FULL` (R100): the length byte 0xFF. -/
  | blkFull
  /-- `BLK.SHORT` (R99): a length byte `n` in 0x02..0xFE. -/
  | blkShort (n : Byte)
  /-- `ENC.ZERO` (R82): the raw byte 0x00. -/
  | encZero
  /-- `ENC.DATA` (R83): a raw byte 0x01..0xFF while the counter is at most 253. -/
  | encData (b : Byte)
  /-- `ENC.CAP` (R84): a raw byte 0x01..0xFF while the counter is 254. -/
  | encCap (b : Byte)
  /-- `ENC.START` (R79): the first step of an encode operation. -/
  | encStart (len cap : Nat)
  /-- `ENC.FINISH` (R85): the last step of an encode operation. -/
  | encFinish
  /-- `DEC.START` (R94): the first step of a decode operation. -/
  | decStart (len cap : Nat)
  /-- `DEC.DATA` (R102): one data byte of the block being parsed. -/
  | decData
  /-- `DEC.FINISH` (R103): the last step of a decode operation. -/
  | decFinish
  deriving DecidableEq, Repr

/-- The row's mnemonic in spec/opcode_table.json. -/
def Instr.mnemonic : Instr → String
  | .encode _ _ => "ENCODE"
  | .decode _ _ => "DECODE"
  | .blkIllegal => "BLK.ILLEGAL"
  | .blkEmpty => "BLK.EMPTY"
  | .blkFull => "BLK.FULL"
  | .blkShort _ => "BLK.SHORT"
  | .encZero => "ENC.ZERO"
  | .encData _ => "ENC.DATA"
  | .encCap _ => "ENC.CAP"
  | .encStart _ _ => "ENC.START"
  | .encFinish => "ENC.FINISH"
  | .decStart _ _ => "DEC.START"
  | .decData => "DEC.DATA"
  | .decFinish => "DEC.FINISH"

/-- What selects a row: the core has no stored program, so a row is selected by a host command, by a step
event, by a length byte, or by a raw byte together with the counter (R76, R81, R95). -/
inductive Selector
  /-- The host-level operation of a unit (rows of format `command`). -/
  | command (u : UnitId) (len cap : Nat)
  /-- The host issues `START(len, cap)` on a unit (the `event` rows ENC.START, DEC.START). -/
  | start (u : UnitId) (len cap : Nat)
  /-- A unit's end of input (the `event` rows ENC.FINISH, DEC.FINISH). -/
  | finish (u : UnitId)
  /-- DEC stands inside a block (the `event` row DEC.DATA): the byte read is data, not an opcode. -/
  | dataByte
  /-- DEC reads a length byte (rows of format `length_byte`). -/
  | lengthByte (n : Byte)
  /-- ENC reads a raw byte with the counter at `cnt` (rows of format `raw_byte`). -/
  | rawByte (cnt b : Byte)
  deriving DecidableEq, Repr

end Sys2Proof
end

