-- ==== Sys2Proof/Machine/State.lean ====
section
/-! DEFINITION. The state of the core (10_state.md), its reset value (R38, R136), and why a step may stop. -/

namespace Sys2Proof.Machine

/-- The phase register of a unit (R16). -/
inductive Phase
  /-- No operation started since reset. -/
  | idle
  /-- An operation is in progress. -/
  | busy
  /-- The last operation has completed and its result is held. -/
  | done
  deriving DecidableEq, Repr

/-- `DEC.st` (R28): whether the next byte read is a length byte or a data byte. -/
inductive DecSt
  | hdr
  | data
  deriving DecidableEq, Repr

/-- The four buffer spaces (R35, R40). -/
inductive Space
  | encIn
  | encOut
  | decIn
  | decOut
  deriving DecidableEq, Repr

/-- The labels of the causes of `MalformedFrame` (R113 to R116).  No register holds one (R117). -/
inductive Cause
  | zeroLengthByte
  | overrun
  | zeroDataByte
  | emptyInput
  deriving DecidableEq, Repr

/-- `STATUS` (R33): three one-bit fields with no bit positions. -/
structure Status where
  busy : Bool
  done : Bool
  fail : Bool
  deriving DecidableEq, Repr

/-- The registers of ENC: the interface registers (R30 to R33) and the working registers (R18 to R23).
`STATUS.FAIL` of ENC is hardwired 0 and has no storage (R33). -/
structure EncRegs where
  /-- R16 -/
  phase : Phase
  /-- `IN_LEN` (R30) -/
  inLen : Nat
  /-- `OUT_CAP` (R31) -/
  outCap : Nat
  /-- `OUT_LEN` (R32) -/
  outLen : Nat
  /-- read index (R18) -/
  rd : Nat
  /-- write index (R19) -/
  wr : Nat
  /-- slot index of the open block's length byte (R20) -/
  slot : Nat
  /-- counter, 8 bits (R21) -/
  cnt : Byte
  /-- just-closed flag (R23) -/
  jc : Bool
  deriving DecidableEq, Repr

/-- The registers of DEC: the interface registers (R30 to R33) and the working registers (R24 to R28). -/
structure DecRegs where
  /-- R16 -/
  phase : Phase
  /-- `IN_LEN` (R30) -/
  inLen : Nat
  /-- `OUT_CAP` (R31) -/
  outCap : Nat
  /-- `OUT_LEN` (R32) -/
  outLen : Nat
  /-- read index (R24) -/
  rd : Nat
  /-- write index (R25) -/
  wr : Nat
  /-- length byte of the block being parsed, 8 bits (R26) -/
  code : Byte
  /-- data bytes of the block not yet copied, 8 bits (R27) -/
  rem : Byte
  /-- R28 -/
  st : DecSt
  /-- `STATUS.FAIL` (R33) -/
  fail : Bool
  deriving DecidableEq, Repr

/-- The contents of one buffer space: (index, byte) pairs with strictly rising indices.  An index that is
not listed holds no value: nobody has written it (R41, R38; notes/assumptions/3.md). -/
abbrev Memory := List Host.Cell

/-- What the host can do (R34, R40, R136, R142).  Reading a status, a length or a buffer changes nothing
and needs no move. -/
inductive HostMove
  /-- Issue `START(len, cap)` on a unit, which then runs step by step (R34). -/
  | start (u : UnitId) (len cap : Nat)
  /-- ENCODE or DECODE taken as one atomic transition, from START to DONE (R90, R110). -/
  | operate (u : UnitId) (len cap : Nat)
  /-- Write one byte of a buffer space (R40). -/
  | write (sp : Space) (i : Nat) (v : Byte)
  /-- The reset event (R136, R138). -/
  | reset
  deriving DecidableEq, Repr

/-- Who moves next: the units and the host are independent agents whose moves interleave freely (R133). -/
inductive Turn
  | unit (u : UnitId)
  | host (m : HostMove)
  deriving DecidableEq, Repr

/-- The whole system: both units, the four buffer spaces, and three fields of the model's own: the order
in which the agents move, the number of free values drawn so far, and the parameter `MAX_LEN`. -/
structure State where
  /-- R14, R18 to R23, R30 to R33 -/
  enc : EncRegs
  /-- R14, R24 to R28, R30 to R33 -/
  dec : DecRegs
  /-- `ENC.IN` (R35) -/
  encIn : Memory
  /-- `ENC.OUT` (R35) -/
  encOut : Memory
  /-- `DEC.IN` (R35) -/
  decIn : Memory
  /-- `DEC.OUT` (R35) -/
  decOut : Memory
  /-- The model's own: the moves to come, oldest first (R133, R142). -/
  turns : List Turn
  /-- The model's own: how many free values have been drawn (U3, U10, U13). -/
  draws : Nat
  /-- `MAX_LEN` (R9): a natural number, or `none` for unbounded.  A parameter: no step writes it. -/
  maxLen : Option Nat
  deriving DecidableEq, Repr

/-- Why the machine stops with a fault. -/
inductive Fault
  /-- Raised by `MemRead` at an index `>= IN_LEN` (the precondition of R45).  Safe: the spec gives such a
  read no value, and no run from an accepted START performs one. -/
  | readOutsideInput
  /-- Raised by `MemRead` at an index that holds no value because the host never wrote it (R41).  Safe: no
  run from an accepted START performs such a read. -/
  | readUnwrittenByte
  /-- Raised by `MemWrite` at an index `>= OUT_CAP` (the precondition of R46; an undersized output buffer
  is undefined behaviour, U1, U4).  Safe: no run from an accepted START performs such a write. -/
  | writeOutsideOutput
  deriving DecidableEq, Repr

/-- Why a move has no meaning (`refuse`, R12). -/
inductive Refusal
  /-- Raised by `exec` for an instruction that has no meaning yet.  Safe. -/
  | notModelled (mnemonic : String)
  /-- Raised by a step whose enabling condition does not hold (R81, R95: exactly one step is enabled, and
  none of a unit that is not BUSY).  Safe: the machine never selects such a step. -/
  | stepNotEnabled
  /-- Raised by step selection in ENC when a non-zero byte meets a counter outside 1..254, where R73 and
  R81 have no row.  Safe: no run from an accepted START reaches it. -/
  | counterOutOfRange
  /-- Raised by a START with `len > MAX_LEN` (R9, R120, D4).  Safe: the operation has no meaning. -/
  | lengthAboveMax
  /-- Raised by a START whose output capacity is below the unit's precondition (R51, R52, R120, D5; U1,
  U4: undefined behaviour in the source).  Safe: the operation has no meaning. -/
  | outputUndersized
  /-- Raised by a START over input bytes that the host never wrote (R41, D11, U8).  Safe: the operation has
  no meaning. -/
  | inputNotWritten
  /-- Raised by a host write to a space of a BUSY unit (R40, R122, D11, U8: not among the host's moves).
  Safe as a stop; the spec notes that a real host may do it. -/
  | hostWriteWhileBusy
  deriving DecidableEq, Repr

/-- One outcome of the machine. -/
abbrev Result := Host.Outcome State Fault Refusal

/-- The machine right after reset (R38, R136): both units `IDLE`, `OUT_LEN` and `FAIL` 0.  The other
registers are unspecified there and start at 0, `HDR`, false (DESIGN CHOICE, notes/assumptions/1.md); the
buffers hold nothing until somebody writes them. -/
def State.reset : State where
  enc :=
    { phase := .idle, inLen := 0, outCap := 0, outLen := 0, rd := 0, wr := 0, slot := 0, cnt := 0, jc := false }
  dec :=
    { phase := .idle, inLen := 0, outCap := 0, outLen := 0, rd := 0, wr := 0, code := 0, rem := 0, st := .hdr,
      fail := false }
  encIn := []
  encOut := []
  decIn := []
  decOut := []
  turns := []
  draws := 0
  maxLen := none

/-! ### Named updates and the views of the state by unit and by space -/

def State.setEnc (s : State) (e : EncRegs) : State := { s with enc := e }

def State.setDec (s : State) (d : DecRegs) : State := { s with dec := d }

def State.setTurns (s : State) (ts : List Turn) : State := { s with turns := ts }

def State.setDraws (s : State) (n : Nat) : State := { s with draws := n }

/-- The bytes of a space. -/
def State.space (s : State) : Space → Memory
  | .encIn => s.encIn
  | .encOut => s.encOut
  | .decIn => s.decIn
  | .decOut => s.decOut

/-- The state with a space's bytes replaced. -/
def State.setSpace (s : State) : Space → Memory → State
  | .encIn, m => { s with encIn := m }
  | .encOut, m => { s with encOut := m }
  | .decIn, m => { s with decIn := m }
  | .decOut, m => { s with decOut := m }

/-- The input space of a unit (R35). -/
def inSpace : UnitId → Space
  | .enc => .encIn
  | .dec => .decIn

/-- The output space of a unit (R35). -/
def outSpace : UnitId → Space
  | .enc => .encOut
  | .dec => .decOut

/-- The unit a space belongs to (R40). -/
def Space.owner : Space → UnitId
  | .encIn => .enc
  | .encOut => .enc
  | .decIn => .dec
  | .decOut => .dec

def State.phaseOf (s : State) : UnitId → Phase
  | .enc => s.enc.phase
  | .dec => s.dec.phase

def State.inLenOf (s : State) : UnitId → Nat
  | .enc => s.enc.inLen
  | .dec => s.dec.inLen

def State.outCapOf (s : State) : UnitId → Nat
  | .enc => s.enc.outCap
  | .dec => s.dec.outCap

end Sys2Proof.Machine
end

