-- ==== Sys2Proof/Machine/Flags.lean ====
section
/-! DEFINITION. The flags and status bits (10_state.md R29, R33): `STATUS` is computed from the phase and,
for DEC, the failure bit; `jc` is the encoder's one flag. -/

namespace Sys2Proof.Machine

/-- ENC's `STATUS`: `FAIL` is hardwired 0 (R33). -/
def encStatus (s : State) : Status where
  busy := s.enc.phase == .busy
  done := s.enc.phase == .done
  fail := false

/-- DEC's `STATUS` (R33). -/
def decStatus (s : State) : Status where
  busy := s.dec.phase == .busy
  done := s.dec.phase == .done
  fail := s.dec.fail

/-- The end of an ENC byte step: the just-closed flag takes the value the step gives it and the read index
moves on by one (R82 to R84, R29). -/
def encAdvance (jc : Bool) (s : State) : State :=
  s.setEnc { s.enc with jc := jc, rd := s.enc.rd + 1 }

end Sys2Proof.Machine
end

