-- ==== Sys2Proof/WellFormed.lean ====
section
/-! DEFINITION. Which terms of `Instr` stand for a row of the opcode table: the value ranges of
30_encoding.md R66 and R73. -/

namespace Sys2Proof

/-- The operand of `BLK.SHORT` is in 0x02..0xFE (R66). -/
def isShortCode (n : Byte) : Bool := decide (2 ≤ n.toNat) && decide (n.toNat ≤ 254)

/-- The operand of `ENC.DATA` and `ENC.CAP` is in 0x01..0xFF (R73). -/
def isDataByte (b : Byte) : Bool := decide (b ≠ Config.term)

/-- The operands are in the ranges the opcode table gives the row.  The arguments of a command or of a
START are unrestricted here: whether they are accepted depends on the state (10_state.md R34). -/
def Instr.wellFormed : Instr → Bool
  | .encode _ _ => true
  | .decode _ _ => true
  | .blkIllegal => true
  | .blkEmpty => true
  | .blkFull => true
  | .blkShort n => isShortCode n
  | .encZero => true
  | .encData b => isDataByte b
  | .encCap b => isDataByte b
  | .encStart _ _ => true
  | .encFinish => true
  | .decStart _ _ => true
  | .decData => true
  | .decFinish => true

end Sys2Proof
end

