-- ==== Sys2Proof/Machine/Operands.lean ====
section
/-! DEFINITION. Operand assembly: the output bound (00_scope.md R10), the operands of a length byte
(30_encoding.md R65), the conditions under which a START is accepted (10_state.md R34) and under which a
step is enabled (40_encoder.md R81, 41_decoder.md R95). -/

namespace Sys2Proof.Machine

/-- `ceil(l / k)`: the least natural number whose product with `k` is at least `l` (R10). -/
def ceilDiv (l k : Nat) : Nat := (l + (k - 1)) / k

/-- `enc_bound(L) = L + ceil(L / 254) + 1` (R10). -/
def encBound (l : Nat) : Nat := l + ceilDiv l 254 + 1

/-! ### The operands of a length byte `n` at index `p` of a frame of length `N` (R65) -/

/-- `data_count = n - 1`. -/
def dataCount (n : Byte) : Nat := n.toNat - 1

/-- `next = p + n`. -/
def nextBlock (p : Nat) (n : Byte) : Nat := p + n.toNat

/-- `final = (p + n == N)`. -/
def isFinalBlock (N p : Nat) (n : Byte) : Bool := nextBlock p n == N

/-- `zero_after = (n != 0xFF) and (not final)`. -/
def zeroAfter (N p : Nat) (n : Byte) : Bool := n != Config.codeFull && !isFinalBlock N p n

/-- The overrun test of R96, on natural numbers and with the index of the length byte itself (R104). -/
def overruns (N p : Nat) (n : Byte) : Bool := decide (nextBlock p n > N)

/-! ### Acceptance of a START (R34, R51, R52, R41) -/

/-- The byte at an index of a space, if somebody has written it.  A list is read from its front. -/
def Memory.read : Memory → Nat → Option Byte
  | [], _ => none
  | (a, v) :: m, i => if i = a then some v else Memory.read m i

/-- Every byte of the first `len` indices has been written (R41). -/
def Memory.allWritten (m : Memory) (len : Nat) : Bool :=
  (List.range len).all fun i => (Memory.read m i).isSome

/-- `len <= MAX_LEN` (R9, R34). -/
def lengthOk (s : State) (len : Nat) : Bool :=
  match s.maxLen with
  | none => true
  | some m => decide (len ≤ m)

/-- The capacity a unit's START asks for: `enc_bound(len)` for ENC (R51), `len` for DEC (R52). -/
def neededCap : UnitId → Nat → Nat
  | .enc, len => encBound len
  | .dec, len => len

/-- Why a START on a unit that is not BUSY has no meaning, if it has none (R120, R41). -/
def startRefusal (u : UnitId) (len cap : Nat) (s : State) : Option Refusal :=
  if !lengthOk s len then some .lengthAboveMax
  else if cap < neededCap u len then some .outputUndersized
  else if !Memory.allWritten (s.space (inSpace u)) len then some .inputNotWritten
  else none

/-! ### Enabling conditions of the steps -/

/-- ENC is BUSY and `b` is the raw byte at `rd`, below `IN_LEN` (R81). -/
def encByteReady (b : Byte) (s : State) : Bool :=
  s.enc.phase == .busy && decide (s.enc.rd < s.enc.inLen) && Memory.read s.encIn s.enc.rd == some b

/-- ENC is BUSY at the end of its input (R85). -/
def encEndReady (s : State) : Bool := s.enc.phase == .busy && s.enc.rd == s.enc.inLen

/-- DEC is BUSY between two blocks and `n` is the length byte at `rd`, below `IN_LEN` (R95, R96). -/
def decHdrReady (n : Byte) (s : State) : Bool :=
  s.dec.phase == .busy && s.dec.st == .hdr && decide (s.dec.rd < s.dec.inLen)
    && Memory.read s.decIn s.dec.rd == some n

/-- DEC is BUSY inside a block with at least one data byte to copy (R95, R102). -/
def decDataReady (s : State) : Bool :=
  s.dec.phase == .busy && s.dec.st == .data && decide (1 ≤ s.dec.rem.toNat)

/-- DEC is BUSY between two blocks at the end of its input (R103). -/
def decEndReady (s : State) : Bool :=
  s.dec.phase == .busy && s.dec.st == .hdr && s.dec.rd == s.dec.inLen

end Sys2Proof.Machine
end

