-- ==== Sys2Proof/Machine/Ops.lean ====
section
/-! DEFINITION. The named operations over the buffer spaces and the registers: `MemRead` and `MemWrite`
(20_memory.md R45, R46), `CLOSE` (40_encoder.md R80), `BLOCK_END` (41_decoder.md R101), and taking the one
exception, `raise MalformedFrame` (60_exceptions.md R124).  There is no return from it (R126): the next
accepted START on DEC clears `FAIL`. -/

namespace Sys2Proof.Machine

/-- Sequencing: the statements of a step run in order (R12), and nothing runs after a stop. -/
def andThen {α β : Type} (o : Host.Outcome α Fault Refusal) (f : α → Host.Outcome β Fault Refusal) :
    Host.Outcome β Fault Refusal :=
  match o with
  | .next a => f a
  | .fault r => .fault r
  | .refused r => .refused r

/-- Store one byte; the listed indices stay strictly rising. -/
def Memory.write : Memory → Nat → Byte → Memory
  | [], i, v => [(i, v)]
  | (a, w) :: m, i, v =>
    if i < a then (i, v) :: (a, w) :: m
    else if i = a then (i, v) :: m
    else (a, w) :: Memory.write m i v

/-- Store `f i` at every index `i < n`. -/
def Memory.fill (m : Memory) : Nat → (Nat → Byte) → Memory
  | 0, _ => m
  | n + 1, f => Memory.write (Memory.fill m n f) n (f n)

/-- `MemRead(S, i, 1)` on the input space of a unit (R45). -/
def memRead (u : UnitId) (i : Nat) (s : State) : Host.Outcome Byte Fault Refusal :=
  if i < s.inLenOf u then
    match Memory.read (s.space (inSpace u)) i with
    | some v => .next v
    | none => .fault .readUnwrittenByte
  else .fault .readOutsideInput

/-- `MemWrite(S, i, 1, v)` on the output space of a unit (R46). -/
def memWrite (u : UnitId) (i : Nat) (v : Byte) (s : State) : Result :=
  if i < s.outCapOf u then .next (s.setSpace (outSpace u) (Memory.write (s.space (outSpace u)) i v))
  else .fault .writeOutsideOutput

/-! ### ENC -/

/-- `CLOSE()` (R80): the counter goes into the reserved slot, the next output byte becomes the new slot. -/
def close (s : State) : Result :=
  andThen (memWrite .enc s.enc.slot s.enc.cnt s) fun t =>
    .next (t.setEnc { t.enc with slot := t.enc.wr, wr := t.enc.wr + 1, cnt := Config.cntInit })

/-- Copy a raw byte to the output and count it: the first three statements of R83 and R84. -/
def encCopy (b : Byte) (s : State) : Result :=
  andThen (memWrite .enc s.enc.wr b s) fun t =>
    .next (t.setEnc { t.enc with wr := t.enc.wr + 1, cnt := t.enc.cnt + 1#8 })

/-- The assignments of ENC.START (R79). -/
def encBegin (len cap : Nat) (s : State) : State :=
  s.setEnc
    { phase := .busy, inLen := len, outCap := cap, outLen := 0, rd := 0, wr := 1, slot := 0, cnt := Config.cntInit,
      jc := false }

/-! ### DEC -/

/-- The first `n` bytes of a unit's output space become free values (U3, U10). -/
def voidOut (u : UnitId) (n : Nat) (s : State) : State :=
  (s.setSpace (outSpace u)
    (Memory.fill (s.space (outSpace u)) n fun i => Config.freeByte (s.draws + i))).setDraws (s.draws + n)

/-- `raise MalformedFrame(cause)` (R124): the operation ends with `OUT_LEN` 0 and `FAIL` 1, and the bytes
`DEC.OUT[0 : IN_LEN - 1]` hold any values (D9).  Every cause has this one effect (R117).  `IN_LEN` and
`OUT_CAP` keep the arguments of START after it (DESIGN CHOICE, notes/assumptions/13.md). -/
def raiseMalformed (_cause : Cause) (s : State) : State :=
  let t := voidOut .dec (s.dec.inLen - 1) s
  t.setDec { t.dec with outLen := 0, fail := true, phase := .done }

/-- The assignments of DEC.START, before its test (R94).  `code` is not written. -/
def decInit (len cap : Nat) (s : State) : State :=
  s.setDec
    { s.dec with
      inLen := len, outCap := cap, rd := 0, wr := 0, rem := 0#8, st := .hdr, outLen := 0, fail := false, phase := .busy }

/-- DEC.START whole (R94): the empty input is malformed (R116). -/
def decBegin (len cap : Nat) (s : State) : State :=
  if len = 0 then raiseMalformed .emptyInput (decInit len cap s) else decInit len cap s

/-- Consume a length byte: `code <- n; rem <- n - 1; rd <- rd + 1` (R96). -/
def takeHeader (n : Byte) (s : State) : State :=
  s.setDec { s.dec with code := n, rem := n - 1#8, rd := s.dec.rd + 1 }

/-- Write one byte at `wr` and move `wr` on (R50). -/
def decEmit (v : Byte) (s : State) : Result :=
  andThen (memWrite .dec s.dec.wr v s) fun t => .next (t.setDec { t.dec with wr := t.dec.wr + 1 })

/-- `BLOCK_END()` (R101): the implied zero after a short block that is not final, then `st <- HDR`. -/
def blockEnd (s : State) : Result :=
  andThen (if s.dec.code ≠ Config.codeFull ∧ s.dec.rd ≠ s.dec.inLen then decEmit Config.term s else .next s) fun t =>
    .next (t.setDec { t.dec with st := .hdr })

/-! ### START, host writes and reset -/

/-- A START on a unit (R34): no effect while the unit is BUSY (R148), no meaning when a precondition is
broken (R120, R41), otherwise `go`. -/
def onStart (u : UnitId) (len cap : Nat) (go : State → Result) (s : State) : Result :=
  if s.phaseOf u = .busy then .next s
  else
    match startRefusal u len cap s with
    | some r => .refused r
    | none => go s

/-- The host writes one byte of a space whose unit is not BUSY (R40, R122). -/
def hostWrite (sp : Space) (i : Nat) (v : Byte) (s : State) : Result :=
  if s.phaseOf sp.owner = .busy then .refused .hostWriteWhileBusy
  else .next (s.setSpace sp (Memory.write (s.space sp) i v))

/-- What a reset leaves in the output space of a unit that it interrupts (R138). -/
def abandon (u : UnitId) (s : State) : State :=
  if s.phaseOf u = .busy then
    match u with
    | .enc => voidOut .enc (encBound s.enc.inLen) s
    | .dec => voidOut .dec (s.dec.inLen - 1) s
  else s

/-- The register values after a reset event (R38, R136): those the table gives, and free values for those
it leaves unspecified (U13), numbered from `d`. -/
def encAfterReset (d : Nat) : EncRegs where
  phase := .idle
  inLen := Config.freeNat d
  outCap := Config.freeNat (d + 1)
  outLen := 0
  rd := Config.freeNat (d + 2)
  wr := Config.freeNat (d + 3)
  slot := Config.freeNat (d + 4)
  cnt := Config.freeByte (d + 5)
  jc := Config.freeBit (d + 6)

/-- As `encAfterReset`, for DEC. -/
def decAfterReset (d : Nat) : DecRegs where
  phase := .idle
  inLen := Config.freeNat d
  outCap := Config.freeNat (d + 1)
  outLen := 0
  rd := Config.freeNat (d + 2)
  wr := Config.freeNat (d + 3)
  code := Config.freeByte (d + 4)
  rem := Config.freeByte (d + 5)
  st := if Config.freeBit (d + 6) then .data else .hdr
  fail := false

/-- The reset event, which acts on both units at once and leaves the buffers of a unit that is not BUSY
alone (R136, R138). -/
def resetEvent (s : State) : State :=
  let t := abandon .dec (abandon .enc s)
  ((t.setEnc (encAfterReset t.draws)).setDec (decAfterReset (t.draws + 7))).setDraws (t.draws + 14)

end Sys2Proof.Machine
end

