-- ==== Sys2Proof/Machine/Decoder.lean ====
section
/-! DEFINITION. The meanings of the steps and block codes of DEC (41_decoder.md R94, R97 to R100, R102,
R103). -/

namespace Sys2Proof.Machine

/-- `DEC.START` (R94). -/
def execDecStart (len cap : Nat) (s : State) : Result :=
  onStart .dec len cap (fun t => .next (decBegin len cap t)) s

/-- `BLK.ILLEGAL` (R97): always malformed. -/
def execBlkIllegal (s : State) : Result :=
  if decHdrReady Config.term s then .next (raiseMalformed .zeroLengthByte s) else .refused .stepNotEnabled

/-- `BLK.EMPTY` (R98): no overrun is possible and the block ends in the same step. -/
def execBlkEmpty (s : State) : Result :=
  if decHdrReady Config.codeMin s then blockEnd (takeHeader Config.codeMin s) else .refused .stepNotEnabled

/-- The header of a block that has data bytes, common to R99 and R100. -/
def openBlock (n : Byte) (s : State) : State :=
  if overruns s.dec.inLen s.dec.rd n then raiseMalformed .overrun s
  else
    let t := takeHeader n s
    t.setDec { t.dec with st := .data }

/-- `BLK.SHORT` (R99). -/
def execBlkShort (n : Byte) (s : State) : Result :=
  if decHdrReady n s && isShortCode n then .next (openBlock n s) else .refused .stepNotEnabled

/-- `BLK.FULL` (R100). -/
def execBlkFull (s : State) : Result :=
  if decHdrReady Config.codeFull s then .next (openBlock Config.codeFull s) else .refused .stepNotEnabled

/-- `DEC.DATA` (R102): the zero test comes before the write. -/
def execDecData (s : State) : Result :=
  if decDataReady s then
    andThen (memRead .dec s.dec.rd s) fun b =>
      if b = Config.term then .next (raiseMalformed .zeroDataByte s)
      else
        andThen (decEmit b s) fun t =>
          let v := t.setDec { t.dec with rd := t.dec.rd + 1, rem := t.dec.rem - 1#8 }
          if v.dec.rem = 0#8 then blockEnd v else .next v
  else .refused .stepNotEnabled

/-- `DEC.FINISH` (R103).  `IN_LEN` and `OUT_CAP` keep the arguments of START after it (DESIGN CHOICE,
notes/assumptions/13.md). -/
def execDecFinish (s : State) : Result :=
  if decEndReady s then .next (s.setDec { s.dec with outLen := s.dec.wr, phase := .done })
  else .refused .stepNotEnabled

end Sys2Proof.Machine
end

