-- ==== Sys2Proof/Machine/Encoder.lean ====
section
/-! DEFINITION. The meanings of the steps of ENC (40_encoder.md R79, R82 to R85). -/

namespace Sys2Proof.Machine

/-- `ENC.START` (R79). -/
def execEncStart (len cap : Nat) (s : State) : Result :=
  onStart .enc len cap (fun t => .next (encBegin len cap t)) s

/-- `ENC.ZERO` (R82). -/
def execEncZero (s : State) : Result :=
  if encByteReady Config.term s then andThen (close s) fun t => .next (encAdvance false t)
  else .refused .stepNotEnabled

/-- `ENC.DATA` (R83). -/
def execEncData (b : Byte) (s : State) : Result :=
  if encByteReady b s && isDataByte b && decide (s.enc.cnt.toNat ≤ 253) then
    andThen (encCopy b s) fun t => .next (encAdvance false t)
  else .refused .stepNotEnabled

/-- `ENC.CAP` (R84). -/
def execEncCap (b : Byte) (s : State) : Result :=
  if encByteReady b s && isDataByte b && decide (s.enc.cnt.toNat = 254) then
    andThen (encCopy b s) fun t => andThen (close t) fun v => .next (encAdvance true v)
  else .refused .stepNotEnabled

/-- `ENC.FINISH` (R85).  `IN_LEN` and `OUT_CAP` keep the arguments of START after it (DESIGN CHOICE,
notes/assumptions/13.md). -/
def execEncFinish (s : State) : Result :=
  if encEndReady s then
    andThen (if s.enc.jc then .next s else close s) fun t =>
      .next (t.setEnc { t.enc with outLen := t.enc.slot, phase := .done })
  else .refused .stepNotEnabled

end Sys2Proof.Machine
end

