-- ==== Sys2Proof/Decode.lean ====
section
/-! DEFINITION. From what selects a step to the instruction (30_encoding.md R66, R73, R76) and back, and
the opcode table's own rows with their first-match rule. -/

namespace Sys2Proof

/-- Why no row is selected. -/
inductive DecodeError
  /-- A non-zero raw byte with the counter outside 1..254: R73 and R81 have no row for it. -/
  | counterOutOfRange
  /-- There is no byte to read. -/
  | noByte
  deriving DecidableEq, Repr

/-- The length-byte map: every value in exactly one row (R66). -/
def decodeLengthByte (n : Byte) : Instr :=
  if n = Config.term then .blkIllegal
  else if n = Config.codeMin then .blkEmpty
  else if n = Config.codeFull then .blkFull
  else .blkShort n

/-- The raw-byte classes (R73, R81).  A counter above 254 with a non-zero byte is in no class. -/
def decodeRawByte (cnt b : Byte) : Except DecodeError Instr :=
  if b = Config.term then .ok .encZero
  else if cnt.toNat ≤ 253 then .ok (.encData b)
  else if cnt.toNat = 254 then .ok (.encCap b)
  else .error .counterOutOfRange

/-- The instruction a selector stands for (R76). -/
def decode : Selector → Except DecodeError Instr
  | .command .enc len cap => .ok (.encode len cap)
  | .command .dec len cap => .ok (.decode len cap)
  | .start .enc len cap => .ok (.encStart len cap)
  | .start .dec len cap => .ok (.decStart len cap)
  | .finish .enc => .ok .encFinish
  | .finish .dec => .ok .decFinish
  | .dataByte => .ok .decData
  | .lengthByte n => .ok (decodeLengthByte n)
  | .rawByte cnt b => decodeRawByte cnt b

/-- The decoder's opcode at the head of a byte sequence, with the bytes after it (R64, R72). -/
def decodeBytes : List Byte → Except DecodeError (Instr × List Byte)
  | [] => .error .noByte
  | n :: rest => .ok (decodeLengthByte n, rest)

/-- The host's question: the instruction of an `nbits`-bit word.  Only the 8-bit length byte is an opcode
of its own: a raw byte needs the counter beside it, and the commands and events have no binary encoding
(R76), so every other width is refused (notes/assumptions/8.md). -/
def decodeTableWord (nbits w : Nat) : Option Instr :=
  if nbits = 8 ∧ w < 256 then
    match decodeBytes [BitVec.ofNat 8 w] with
    | .ok (i, _) => some i
    | .error _ => none
  else none

/-! ### The encoder -/

/-- What selects a well-formed instruction, from the same tables.  ENC.ZERO and ENC.DATA are selected at
any counter up to 254 and 253: the word written is the one at the counter's start value. -/
def encode : Instr → Selector
  | .encode len cap => .command .enc len cap
  | .decode len cap => .command .dec len cap
  | .blkIllegal => .lengthByte 0x00#8
  | .blkEmpty => .lengthByte 0x01#8
  | .blkFull => .lengthByte 0xFF#8
  | .blkShort n => .lengthByte n
  | .encZero => .rawByte Config.cntInit 0x00#8
  | .encData b => .rawByte Config.cntInit b
  | .encCap b => .rawByte 0xFE#8 b
  | .encStart len cap => .start .enc len cap
  | .encFinish => .finish .enc
  | .decStart len cap => .start .dec len cap
  | .decData => .dataByte
  | .decFinish => .finish .dec

/-- The byte of a selector, for the rows a byte selects (R76). -/
def Selector.byte : Selector → Option Byte
  | .command _ _ _ => none
  | .start _ _ _ => none
  | .finish _ => none
  | .dataByte => none
  | .lengthByte n => some n
  | .rawByte _ b => some b

/-! ### The opcode table's rows -/

/-- The `format` groups of the opcode table (R76). -/
inductive RowFormat
  | command
  | lengthByte
  | rawByte
  | event
  deriving DecidableEq, Repr

/-- A row of spec/opcode_table.json: its mnemonic, its group, its width in bits, its match and mask, and
the counter values `cntLo..cntHi` at which its condition on the counter holds (0..255 for a row with none). -/
structure Row where
  mnemonic : String
  format : RowFormat
  width : Nat
  pattern : Byte
  mask : Byte
  cntLo : Nat
  cntHi : Nat
  deriving DecidableEq, Repr

/-- The `length_byte` rows in ascending priority. -/
def lengthByteRows : List Row :=
  [ ⟨"BLK.ILLEGAL", .lengthByte, 8, 0x00, 0xFF, 0, 255⟩,
    ⟨"BLK.EMPTY", .lengthByte, 8, 0x01, 0xFF, 0, 255⟩,
    ⟨"BLK.FULL", .lengthByte, 8, 0xFF, 0xFF, 0, 255⟩,
    ⟨"BLK.SHORT", .lengthByte, 8, 0x00, 0x00, 0, 255⟩ ]

/-- The `raw_byte` rows in ascending priority. -/
def rawByteRows : List Row :=
  [ ⟨"ENC.ZERO", .rawByte, 8, 0x00, 0xFF, 0, 255⟩,
    ⟨"ENC.DATA", .rawByte, 8, 0x00, 0x00, 0, 253⟩,
    ⟨"ENC.CAP", .rawByte, 8, 0x00, 0x00, 254, 254⟩ ]

/-- `(byte & mask) == match`, and the row's condition on the counter (R76). -/
def Row.selects (r : Row) (cnt b : Byte) : Bool :=
  (b &&& r.mask == r.pattern) && decide (r.cntLo ≤ cnt.toNat) && decide (cnt.toNat ≤ r.cntHi)

/-- The first row, in ascending priority, that the byte selects (R76). -/
def firstRow (rows : List Row) (cnt b : Byte) : Option String :=
  (rows.find? fun r => r.selects cnt b).map Row.mnemonic

end Sys2Proof
end

