-- ==== Sys2Proof/Machine/Fetch.lean ====
section
/-! DEFINITION. Step selection: which instruction a BUSY unit runs next (40_encoder.md R81, 41_decoder.md
R95), and placing a length byte where DEC selects from. -/

namespace Sys2Proof.Machine

/-- The instruction of a selector, or the stop of a selector that no row takes. -/
def decoded (sel : Selector) : Host.Outcome Instr Fault Refusal :=
  match decode sel with
  | .ok i => .next i
  | .error _ => .refused .counterOutOfRange

/-- ENC's next step (R81). -/
def selectEnc (s : State) : Host.Outcome Instr Fault Refusal :=
  if s.enc.phase = .busy then
    if s.enc.rd = s.enc.inLen then decoded (.finish .enc)
    else andThen (memRead .enc s.enc.rd s) fun b => decoded (.rawByte s.enc.cnt b)
  else .refused .stepNotEnabled

/-- DEC's next step (R95). -/
def selectDec (s : State) : Host.Outcome Instr Fault Refusal :=
  if s.dec.phase = .busy then
    match s.dec.st with
    | .hdr =>
      if s.dec.rd = s.dec.inLen then decoded (.finish .dec)
      else andThen (memRead .dec s.dec.rd s) fun n => decoded (.lengthByte n)
    | .data => decoded .dataByte
  else .refused .stepNotEnabled

/-- The next step of a unit. -/
def selectStep : UnitId → State → Host.Outcome Instr Fault Refusal
  | .enc, s => selectEnc s
  | .dec, s => selectDec s

/-- The state in which DEC moves next and finds the length byte `n` at `rd`, its data bytes 0x00, inside
an input and an output buffer that hold the block (notes/assumptions/8.md). -/
def placeLengthByte (n : Byte) (s : State) : State :=
  let p := s.dec.rd
  let len := max s.dec.inLen (p + max n.toNat 1)
  let body := (List.range (n.toNat - 1)).foldl (fun m k => Memory.write m (p + 1 + k) Config.term) s.decIn
  let t := s.setSpace .decIn (Memory.write body p n)
  (t.setDec
    { t.dec with phase := .busy, st := .hdr, rem := 0#8, fail := false, inLen := len, outCap := max s.dec.outCap len }).setTurns
    (.unit .dec :: s.turns)

end Sys2Proof.Machine
end

