-- ==== Sys2Proof/Machine/Commands.lean ====
section
/-! DEFINITION. The host-level operations ENCODE and DECODE (40_encoder.md R78, R90; 41_decoder.md R93,
R110) as the sequence of their unit's steps, taken as one transition. -/

namespace Sys2Proof.Machine

/-- The meaning of a step of a unit, by instruction; the other instructions are no step of a running unit. -/
def stepMeaning (i : Instr) (s : State) : Result :=
  match i with
  | .encode _ _ => .refused .stepNotEnabled
  | .decode _ _ => .refused .stepNotEnabled
  | .encStart _ _ => .refused .stepNotEnabled
  | .decStart _ _ => .refused .stepNotEnabled
  | .encZero => execEncZero s
  | .encData b => execEncData b s
  | .encCap b => execEncCap b s
  | .encFinish => execEncFinish s
  | .blkIllegal => execBlkIllegal s
  | .blkEmpty => execBlkEmpty s
  | .blkFull => execBlkFull s
  | .blkShort n => execBlkShort n s
  | .decData => execDecData s
  | .decFinish => execDecFinish s

/-- One step of a unit: select it, then run it (R81, R95). -/
def unitStep (u : UnitId) (s : State) : Result :=
  andThen (selectStep u s) fun i => stepMeaning i s

/-- At most `k` steps of a unit, ending when it is not BUSY. -/
def runUnit (u : UnitId) : Nat → State → Result
  | 0, s => .next s
  | k + 1, s => if s.phaseOf u = .busy then andThen (unitStep u s) (runUnit u k) else .next s

/-- `ENCODE` (R78, R90): ENC.START, then `IN_LEN` byte steps, then ENC.FINISH. -/
def execEncode (len cap : Nat) (s : State) : Result :=
  onStart .enc len cap (fun t => runUnit .enc (len + 1) (encBegin len cap t)) s

/-- `DECODE` (R93, R110): DEC.START, then at most `IN_LEN` byte steps and DEC.FINISH, until DONE. -/
def execDecode (len cap : Nat) (s : State) : Result :=
  onStart .dec len cap (fun t => runUnit .dec (len + 1) (decBegin len cap t)) s

end Sys2Proof.Machine
end

