-- ==== Sys2Proof/Machine/Dispatch.lean ====
section
/-! DEFINITION. The meaning of every instruction: one arm per row of the opcode table. -/

namespace Sys2Proof.Machine

def exec (i : Instr) (s : State) : Host.Outcome State Fault Refusal :=
  match i with
  | .encode len cap => Sys2Proof.Machine.execEncode len cap s
  | .decode len cap => Sys2Proof.Machine.execDecode len cap s
  | .blkIllegal => Sys2Proof.Machine.execBlkIllegal s
  | .blkEmpty => Sys2Proof.Machine.execBlkEmpty s
  | .blkFull => Sys2Proof.Machine.execBlkFull s
  | .blkShort n => Sys2Proof.Machine.execBlkShort n s
  | .encZero => Sys2Proof.Machine.execEncZero s
  | .encData b => Sys2Proof.Machine.execEncData b s
  | .encCap b => Sys2Proof.Machine.execEncCap b s
  | .encStart len cap => Sys2Proof.Machine.execEncStart len cap s
  | .encFinish => Sys2Proof.Machine.execEncFinish s
  | .decStart len cap => Sys2Proof.Machine.execDecStart len cap s
  | .decData => Sys2Proof.Machine.execDecData s
  | .decFinish => Sys2Proof.Machine.execDecFinish s

end Sys2Proof.Machine
end

