-- ==== Sys2Proof/Machine/Moves.lean ====
section
/-! DEFINITION. One move of an agent: a unit's turn (10_state.md R22, 60_exceptions.md R135), a host move
(70_reset_and_hazards.md R142), and the order of moves when none is given. -/

namespace Sys2Proof.Machine

/-- A unit's turn: its enabled step if it is BUSY; a unit that is not BUSY does nothing (R135). -/
def unitTurn (u : UnitId) (s : State) : Result :=
  if s.phaseOf u = .busy then andThen (selectStep u s) fun i => exec i s else .next s

/-- Run what a command or a START selects (R76). -/
def issue (sel : Selector) (s : State) : Result := andThen (decoded sel) fun i => exec i s

/-- A host move (R34, R40, R136, R142). -/
def hostMove (m : HostMove) (s : State) : Result :=
  match m with
  | .start u len cap => issue (.start u len cap) s
  | .operate u len cap => issue (.command u len cap) s
  | .write sp i v => hostWrite sp i v s
  | .reset => .next (resetEvent s)

/-- The move of the agent whose turn it is. -/
def takeTurn (t : Turn) (s : State) : Result :=
  match t with
  | .unit u => unitTurn u s
  | .host m => hostMove m s

/-- With no turn given, a BUSY unit goes on by itself (R142: it never waits for the host), ENC before DEC
(DESIGN CHOICE, notes/assumptions/7.md: the interleaving cannot be observed, R133); with no unit BUSY
nothing happens (R135, R152). -/
def freeRun (s : State) : Result :=
  if s.enc.phase = .busy then unitTurn .enc s else unitTurn .dec s

end Sys2Proof.Machine
end

