-- ==== Sys2Proof/Machine/Step.lean ====
section
/-! DEFINITION. One step of the machine, and the host's way to place an instruction. -/

namespace Sys2Proof.Machine

/-- One step: the oldest turn is taken and consumed; with none left, the units run on by themselves. -/
def step (s : State) : Host.Outcome State Fault Refusal :=
  match s.turns with
  | [] => freeRun s
  | t :: ts => takeTurn t (s.setTurns ts)

/-- The state whose next step fetches and runs the `nbits`-bit word `w`: a length byte where DEC reads its
next one.  Words of other widths are no opcodes (`decodeTableWord` refuses them) and change nothing. -/
def State.withFetchWord (s : State) (nbits w : Nat) : State :=
  if nbits = 8 ∧ w < 256 then placeLengthByte (BitVec.ofNat 8 w) s else s

end Sys2Proof.Machine
end

