-- ==== Sys2Proof/Machine/Functional.lean ====
section
/-! DEFINITION. The spec's functional forms: `enc` (40_encoder.md R87, R89), `dec` (41_decoder.md R106), the
block walk (R72, R107) and the common pseudocode of DEC.HDR (R96).  No meaning calls them; the statements
compare the machine with them. -/

namespace Sys2Proof.Machine

/-- The runs of a raw buffer between its zero bytes: `X == r_0 ++ [0] ++ r_1 ++ ... ++ [0] ++ r_Z` (R87). -/
def zeroRuns : List Byte → List (List Byte)
  | [] => [[]]
  | b :: bs =>
    if b = Config.term then [] :: zeroRuns bs
    else
      match zeroRuns bs with
      | [] => [[b]]
      | r :: rs => (b :: r) :: rs

/-- `run(r, last)` of R89: the blocks of one zero-free run.  The fuel bounds the number of full blocks. -/
def encRun (last : Bool) : Nat → List Byte → List Byte
  | 0, r => BitVec.ofNat 8 (r.length + 1) :: r
  | fuel + 1, r =>
    if 254 ≤ r.length then
      Config.codeFull :: (r.take 254 ++ if last && r.length == 254 then [] else encRun last fuel (r.drop 254))
    else BitVec.ofNat 8 (r.length + 1) :: r

/-- The blocks of the runs in order; the last run is told apart (R89). -/
def encRuns : List (List Byte) → List Byte
  | [] => []
  | [r] => encRun true r.length r
  | r :: rs => encRun false r.length r ++ encRuns rs

/-- `enc(X)` (R89). -/
def enc (X : List Byte) : List Byte := encRuns (zeroRuns X)

/-- `F` of R87 in terms of the raw buffer alone: the number of full blocks. -/
def fullBlocks (X : List Byte) : Nat := ((zeroRuns X).map fun r => r.length / 254).sum

/-- `E` of R87 in terms of the raw buffer alone: 0 exactly when the last run is not empty and its length is
a multiple of 254. -/
def finalClose (X : List Byte) : Nat :=
  let r := (zeroRuns X).getLast?.getD []
  if 0 < r.length ∧ r.length % 254 = 0 then 0 else 1

/-- `blocks(E, p)` of R106 on what is left of the frame: `n` is its first byte.  The fuel bounds the number
of blocks. -/
def decBlocks : Nat → List Byte → Option (List Byte)
  | 0, _ => none
  | _ + 1, [] => none
  | fuel + 1, n :: rest =>
    if n = Config.term then none
    else if rest.length < n.toNat - 1 then none
    else
      let d := rest.take (n.toNat - 1)
      let more := rest.drop (n.toNat - 1)
      if Config.term ∈ d then none
      else if more = [] then some d
      else if n = Config.codeFull then (decBlocks fuel more).map (d ++ ·)
      else (decBlocks fuel more).map (d ++ Config.term :: ·)

/-- `dec(E)` (R106); `none` is `FAIL`. -/
def dec (E : List Byte) : Option (List Byte) := decBlocks E.length E

/-- The length bytes the walk `p_0 = 0, p_{k+1} = p_k + E[p_k]` meets, if it reaches exactly the end of the
frame (R72, R107). -/
def walkCodes : Nat → List Byte → Option (List Byte)
  | _, [] => some []
  | 0, _ :: _ => none
  | fuel + 1, n :: rest =>
    if n = Config.term then none
    else if rest.length < n.toNat - 1 then none
    else (walkCodes fuel (rest.drop (n.toNat - 1))).map (n :: ·)

/-- The length bytes of a frame, in order. -/
def frameCodes (E : List Byte) : Option (List Byte) := walkCodes E.length E

/-- The pseudocode common to all four length-byte classes (R96), with the clause `n != 1` as the source has
it. -/
def decHdr (n : Byte) (s : State) : Result :=
  if n = Config.term then .next (raiseMalformed .zeroLengthByte s)
  else if overruns s.dec.inLen s.dec.rd n && n != Config.codeMin then .next (raiseMalformed .overrun s)
  else
    let t := takeHeader n s
    if t.dec.rem = 0#8 then blockEnd t else .next (t.setDec { t.dec with st := .data })

end Sys2Proof.Machine
end

