-- ==== Sys2Proof/Safety.lean ====
section
/-! DEFINITION. What the statements speak of: the contents of a space as a byte sequence, what the host may
take as a result, and the invariants of the machine (40_encoder.md R86, 41_decoder.md R105). -/

namespace Sys2Proof.Machine

/-- The canonical form of a space: the listed indices rise strictly.  An unlisted index holds no value, so
no listed byte equals what an unlisted index reads as. -/
abbrev Memory.wf (m : Memory) : Prop := m.Pairwise fun x y => x.1 < y.1

/-- The space holds the sequence `X` from index 0 on. -/
abbrev Memory.HasBytes (m : Memory) (X : List Byte) : Prop := ∀ i, i < X.length → Memory.read m i = X[i]?

/-- Every index below `n` holds a value. -/
abbrev Memory.WrittenBelow (m : Memory) (n : Nat) : Prop := ∀ i, i < n → (Memory.read m i).isSome

/-- The two spaces agree at every index from `n` on. -/
def Memory.AgreeFrom (n : Nat) (m m' : Memory) : Prop := ∀ i, n ≤ i → Memory.read m' i = Memory.read m i

/-- The preconditions of a START of `u` on the input `X` (R34, R41, R51, R52, R78, R93): the unit is not
BUSY, the length and the capacity are in their ranges, and the host has written the input. -/
def Accepts (u : UnitId) (X : List Byte) (cap : Nat) (s : State) : Prop :=
  s.phaseOf u ≠ .busy ∧ lengthOk s X.length = true ∧ neededCap u X.length ≤ cap ∧
    Memory.HasBytes (s.space (inSpace u)) X

/-- What the host may take from a unit once it has seen `DONE` (R40, R140, R141, R145): the first `OUT_LEN`
bytes of the output, and nothing after a failure. -/
def resultLen (s : State) : UnitId → Option Nat
  | .enc => if (encStatus s).done then some s.enc.outLen else none
  | .dec => if (decStatus s).done && !(decStatus s).fail then some s.dec.outLen else none

/-- The host takes `X` as the result of the unit. -/
def HasResult (u : UnitId) (X : List Byte) (s : State) : Prop :=
  resultLen s u = some X.length ∧ Memory.HasBytes (s.space (outSpace u)) X

/-- The four spaces are in canonical form. -/
def MemoryInv (s : State) : Prop := ∀ sp, Memory.wf (s.space sp)

/-- ENC between two steps of an operation (R86 I1, I2, I3, I6, I7, and the preconditions R41, R51 that START
checked).  `wr - 1 - rd` is `caps`, the number of full blocks closed so far, each of which consumed 254
raw bytes. -/
def EncInv (s : State) : Prop :=
  s.enc.phase = .busy →
    s.enc.wr = s.enc.slot + s.enc.cnt.toNat ∧ 1 ≤ s.enc.cnt.toNat ∧ s.enc.cnt.toNat ≤ 254 ∧
    1 + s.enc.rd ≤ s.enc.wr ∧ 254 * (s.enc.wr - 1 - s.enc.rd) + (s.enc.cnt.toNat - 1) ≤ s.enc.rd ∧
    (s.enc.jc = true → s.enc.cnt.toNat = 1 ∧ 254 ≤ s.enc.rd) ∧ s.enc.rd ≤ s.enc.inLen ∧
    s.enc.outLen = 0 ∧ encBound s.enc.inLen ≤ s.enc.outCap ∧ Memory.WrittenBelow s.encIn s.enc.inLen

/-- DEC between two steps of an operation (R105 J1, J2, J3, and the preconditions R41, R52 that START
checked); `FAIL` implies `DONE` (R33). -/
def DecInv (s : State) : Prop :=
  (s.dec.fail = true → s.dec.phase = .done ∧ s.dec.outLen = 0) ∧
  (s.dec.phase = .busy →
    1 ≤ s.dec.inLen ∧ s.dec.wr ≤ s.dec.rd ∧ s.dec.rd ≤ s.dec.inLen ∧
    (s.dec.st = .hdr → s.dec.rem = 0#8) ∧
    (s.dec.st = .data →
      1 ≤ s.dec.rem.toNat ∧ s.dec.rem.toNat ≤ 254 ∧ s.dec.rd + s.dec.rem.toNat ≤ s.dec.inLen ∧
      s.dec.wr + 1 ≤ s.dec.rd ∧ s.dec.code ≠ Config.term) ∧
    s.dec.outLen = 0 ∧ s.dec.inLen ≤ s.dec.outCap ∧ Memory.WrittenBelow s.decIn s.dec.inLen)

/-- The machine's invariant: it holds at reset and every step keeps it. -/
def MachineInv (s : State) : Prop := MemoryInv s ∧ EncInv s ∧ DecInv s

/-- What ENC has written so far in an operation (R86 I4, I5): below the open slot every byte is written and
non-zero, and after it stand the raw bytes of the open block, which are non-zero. -/
def EncContent (s : State) : Prop :=
  s.enc.phase = .busy →
    (∀ i, i < s.enc.slot → ∃ v, Memory.read s.encOut i = some v ∧ v ≠ Config.term) ∧
    (∀ k, 1 ≤ k → k < s.enc.cnt.toNat →
      ∃ b, Memory.read s.encIn (s.enc.rd + k - s.enc.cnt.toNat) = some b ∧ b ≠ Config.term ∧
        Memory.read s.encOut (s.enc.slot + k) = some b)

/-- The unit that an instruction is a step or an operation of (R76, R78 to R103). -/
def unitOf : Instr → UnitId
  | .encode _ _ => .enc
  | .decode _ _ => .dec
  | .blkIllegal => .dec
  | .blkEmpty => .dec
  | .blkFull => .dec
  | .blkShort _ => .dec
  | .encZero => .enc
  | .encData _ => .enc
  | .encCap _ => .enc
  | .encStart _ _ => .enc
  | .encFinish => .enc
  | .decStart _ _ => .dec
  | .decData => .dec
  | .decFinish => .dec

/-- Nothing outside ENC's registers and `ENC.OUT` changes: the frame of every ENC instruction (R14, R40). -/
def EncFrame (s t : State) : Prop :=
  t.dec = s.dec ∧ t.encIn = s.encIn ∧ t.decIn = s.decIn ∧ t.decOut = s.decOut ∧ t.turns = s.turns ∧
    t.draws = s.draws ∧ t.maxLen = s.maxLen

/-- Nothing outside DEC's registers, `DEC.OUT` and the count of draws changes: the frame of every DEC
instruction (R14, R40). -/
def DecFrame (s t : State) : Prop :=
  t.enc = s.enc ∧ t.encIn = s.encIn ∧ t.encOut = s.encOut ∧ t.decIn = s.decIn ∧ t.turns = s.turns ∧
    t.maxLen = s.maxLen

/-- The effect of `raise MalformedFrame` between the states around it (R124): `OUT_LEN` 0, `FAIL` 1, phase
`DONE`, every other register as it was (of `IN_LEN` and `OUT_CAP` that is the model's choice,
notes/assumptions/13.md, and of the working registers too, 10.md), and `DEC.OUT` as it was from index
`IN_LEN - 1` on.  Nothing is
said of the bytes below that index. -/
def MalformedEntry (s t : State) : Prop :=
  t.dec = { s.dec with outLen := 0, fail := true, phase := .done } ∧ DecFrame s t ∧
    Memory.AgreeFrom (s.dec.inLen - 1) s.decOut t.decOut

/-- A move of the host is next: the only moves that the spec leaves without a meaning are the host's. -/
def HostTurnNext (s : State) : Prop := ∃ m ts, s.turns = .host m :: ts

end Sys2Proof.Machine
end

