-- ==== Sys2Proof/Certificates/Slice0/Obligations.lean ====
section
/-! DEFINITION. The statements for the provers, in the order of the spec's subjects: reset, encoding, the
primitives, the steps of ENC and of DEC, the exception, commands and host moves, invariants, the
operations as a whole, and the functional forms. -/

open Sys2Proof Sys2Proof.Machine

/-! ### Reset and parameters -/

/-- R38, R136: what the reset table gives. -/
def Obligations.ResetStateHasTableValues : Prop :=
  State.reset.enc.phase = .idle ∧ State.reset.dec.phase = .idle ∧
    State.reset.enc.outLen = 0 ∧ State.reset.dec.outLen = 0 ∧
    encStatus State.reset = ⟨false, false, false⟩ ∧ decStatus State.reset = ⟨false, false, false⟩

/-- The machine's invariant holds at reset. -/
def Obligations.ResetStateMeetsMachineInvariant : Prop := MachineInv State.reset

/-- R10: `enc_bound(L) = L + ceil(L / 254) + 1`, with `ceil` the least natural number that covers `L`. -/
def Obligations.EncBoundAddsLeastCeiling : Prop :=
  ∀ l, encBound l = l + ceilDiv l 254 + 1 ∧ l ≤ 254 * ceilDiv l 254 ∧ ∀ k, l ≤ 254 * k → ceilDiv l 254 ≤ k

/-! ### Encoding -/

/-- Words written out from R66 and R73: a length byte of each class, a raw byte of each class. -/
def Obligations.SampleWordsDecodeToTheirRows : Prop :=
  decodeTableWord 8 0b00000000 = some .blkIllegal ∧ decodeTableWord 8 0b00000001 = some .blkEmpty ∧
    decodeTableWord 8 0b00000010 = some (.blkShort 2) ∧ decodeTableWord 8 0b11111110 = some (.blkShort 254) ∧
    decodeTableWord 8 0b11111111 = some .blkFull ∧
    decode (.rawByte 254 0b00000000) = .ok .encZero ∧ decode (.rawByte 253 0b11111111) = .ok (.encData 255) ∧
    decode (.rawByte 254 0b00000001) = .ok (.encCap 1)

/-- R66: the complete map of the 256 values of a length byte. -/
def Obligations.LengthByteMapIsComplete : Prop :=
  ∀ n : Byte,
    (n.toNat = 0 → decode (.lengthByte n) = .ok .blkIllegal) ∧
    (n.toNat = 1 → decode (.lengthByte n) = .ok .blkEmpty) ∧
    (2 ≤ n.toNat → n.toNat ≤ 254 → decode (.lengthByte n) = .ok (.blkShort n)) ∧
    (n.toNat = 255 → decode (.lengthByte n) = .ok .blkFull)

/-- R73: the classes of a raw byte; with a counter above 254 a non-zero byte is in no class. -/
def Obligations.RawByteClassesAreComplete : Prop :=
  ∀ cnt b : Byte,
    (b = 0x00#8 → decode (.rawByte cnt b) = .ok .encZero) ∧
    (b ≠ 0x00#8 → cnt.toNat ≤ 253 → decode (.rawByte cnt b) = .ok (.encData b)) ∧
    (b ≠ 0x00#8 → cnt.toNat = 254 → decode (.rawByte cnt b) = .ok (.encCap b)) ∧
    (b ≠ 0x00#8 → 254 < cnt.toNat → decode (.rawByte cnt b) = .error .counterOutOfRange)

/-- Decoding what the encoder writes for a well-formed instruction gives it back. -/
def Obligations.DecodeInvertsEncode : Prop :=
  ∀ i : Instr, i.wellFormed = true → decode (encode i) = .ok i

/-- R76: the decoder takes the first row, in ascending priority, that the byte and the counter select. -/
def Obligations.DecoderTakesFirstMatchingRow : Prop :=
  (∀ cnt n : Byte, firstRow lengthByteRows cnt n = some (decodeLengthByte n).mnemonic) ∧
    ∀ cnt b : Byte,
      (∀ i, decodeRawByte cnt b = .ok i → firstRow rawByteRows cnt b = some i.mnemonic ∧ i.wellFormed = true) ∧
      (∀ e, decodeRawByte cnt b = .error e → firstRow rawByteRows cnt b = none)

/-! ### The primitives -/

/-- R45: a read inside the input of a byte that was written gives that byte. -/
def Obligations.MemReadGivesTheWrittenByte : Prop :=
  ∀ (u : UnitId) (i : Nat) (v : Byte) (s : State),
    i < s.inLenOf u → Memory.read (s.space (inSpace u)) i = some v → memRead u i s = .next v

/-- R46: a write inside the output sets that byte and changes nothing else. -/
def Obligations.MemWriteSetsOneByte : Prop :=
  ∀ (u : UnitId) (i : Nat) (v : Byte) (s : State), i < s.outCapOf u →
    ∃ t, memWrite u i v s = .next t ∧ Memory.read (t.space (outSpace u)) i = some v ∧
      (∀ j, j ≠ i → Memory.read (t.space (outSpace u)) j = Memory.read (s.space (outSpace u)) j) ∧
      (∀ sp, sp ≠ outSpace u → t.space sp = s.space sp) ∧
      t.enc = s.enc ∧ t.dec = s.dec ∧ t.turns = s.turns ∧ t.draws = s.draws ∧ t.maxLen = s.maxLen ∧
      (Memory.wf (s.space (outSpace u)) → Memory.wf (t.space (outSpace u)))

/-! ### The steps of ENC -/

/-- R79: ENC.START. -/
def Obligations.EncStartInitialisesEncoder : Prop :=
  ∀ (s : State) (X : List Byte) (cap : Nat), Accepts .enc X cap s →
    ∃ t, exec (.encStart X.length cap) s = .next t ∧
      t.enc = { phase := .busy, inLen := X.length, outCap := cap, outLen := 0, rd := 0, wr := 1, slot := 0, cnt := 1#8,
                jc := false } ∧
      EncFrame s t ∧ t.encOut = s.encOut

/-- R82, with CLOSE of R80: ENC.ZERO. -/
def Obligations.EncZeroClosesTheBlock : Prop :=
  ∀ s : State, s.enc.phase = .busy → s.enc.rd < s.enc.inLen → Memory.read s.encIn s.enc.rd = some 0x00#8 →
    s.enc.slot < s.enc.outCap →
    ∃ t, exec .encZero s = .next t ∧
      t.enc = { s.enc with slot := s.enc.wr, wr := s.enc.wr + 1, cnt := 1#8, jc := false, rd := s.enc.rd + 1 } ∧
      EncFrame s t ∧ Memory.read t.encOut s.enc.slot = some s.enc.cnt ∧
      ∀ i, i ≠ s.enc.slot → Memory.read t.encOut i = Memory.read s.encOut i

/-- R83: ENC.DATA. -/
def Obligations.EncDataCopiesAndCounts : Prop :=
  ∀ (s : State) (b : Byte), s.enc.phase = .busy → s.enc.rd < s.enc.inLen →
    Memory.read s.encIn s.enc.rd = some b → b ≠ 0x00#8 → s.enc.cnt.toNat ≤ 253 → s.enc.wr < s.enc.outCap →
    ∃ t, exec (.encData b) s = .next t ∧
      t.enc = { s.enc with wr := s.enc.wr + 1, cnt := s.enc.cnt + 1#8, jc := false, rd := s.enc.rd + 1 } ∧
      t.enc.cnt.toNat = s.enc.cnt.toNat + 1 ∧
      EncFrame s t ∧ Memory.read t.encOut s.enc.wr = some b ∧
      ∀ i, i ≠ s.enc.wr → Memory.read t.encOut i = Memory.read s.encOut i

/-- R84: ENC.CAP. -/
def Obligations.EncCapClosesTheFullBlock : Prop :=
  ∀ (s : State) (b : Byte), s.enc.phase = .busy → s.enc.rd < s.enc.inLen →
    Memory.read s.encIn s.enc.rd = some b → b ≠ 0x00#8 → s.enc.cnt.toNat = 254 →
    s.enc.wr < s.enc.outCap → s.enc.slot < s.enc.wr →
    ∃ t, exec (.encCap b) s = .next t ∧
      t.enc = { s.enc with slot := s.enc.wr + 1, wr := s.enc.wr + 2, cnt := 1#8, jc := true, rd := s.enc.rd + 1 } ∧
      EncFrame s t ∧ Memory.read t.encOut s.enc.wr = some b ∧ Memory.read t.encOut s.enc.slot = some 0xFF#8 ∧
      ∀ i, i ≠ s.enc.wr → i ≠ s.enc.slot → Memory.read t.encOut i = Memory.read s.encOut i

/-- R85: ENC.FINISH, closing the open block unless the cap just closed one.  That `IN_LEN`, `OUT_CAP` and the
working registers keep their values at `DONE` is the model's choice (notes/assumptions/10.md and 13.md). -/
def Obligations.EncFinishReportsTheLength : Prop :=
  ∀ s : State, s.enc.phase = .busy → s.enc.rd = s.enc.inLen →
    (s.enc.jc = true → ∃ t, exec .encFinish s = .next t ∧
      t.enc = { s.enc with outLen := s.enc.slot, phase := .done } ∧ EncFrame s t ∧ t.encOut = s.encOut) ∧
    (s.enc.jc = false → s.enc.slot < s.enc.outCap → ∃ t, exec .encFinish s = .next t ∧
      t.enc = { s.enc with slot := s.enc.wr, wr := s.enc.wr + 1, cnt := 1#8, outLen := s.enc.wr, phase := .done } ∧
      EncFrame s t ∧ Memory.read t.encOut s.enc.slot = some s.enc.cnt ∧
      ∀ i, i ≠ s.enc.slot → Memory.read t.encOut i = Memory.read s.encOut i)

/-! ### The steps and block codes of DEC -/

/-- R94: DEC.START; the empty input is malformed (R116).  That the registers keep their values at `DONE` after
an empty input is the model's choice (notes/assumptions/10.md and 13.md). -/
def Obligations.DecStartInitialisesDecoder : Prop :=
  ∀ (s : State) (X : List Byte) (cap : Nat), Accepts .dec X cap s →
    ∃ t, exec (.decStart X.length cap) s = .next t ∧ DecFrame s t ∧ t.decOut = s.decOut ∧
      t.dec = { s.dec with
                phase := if X = [] then .done else .busy, fail := decide (X = []),
                inLen := X.length, outCap := cap, outLen := 0, rd := 0, wr := 0, rem := 0#8, st := .hdr }

/-- R97: `BLK.ILLEGAL` always raises MalformedFrame (R124), by its whole effect.  That `MalformedEntry` keeps the
other registers at `DONE` is the model's choice (notes/assumptions/10.md and 13.md). -/
def Obligations.BlkIllegalRaisesMalformedFrame : Prop :=
  ∀ s : State, s.dec.phase = .busy → s.dec.st = .hdr → s.dec.rd < s.dec.inLen →
    Memory.read s.decIn s.dec.rd = some 0x00#8 →
    ∃ t, exec .blkIllegal s = .next t ∧ MalformedEntry s t

/-- R98: `BLK.EMPTY`. -/
def Obligations.BlkEmptyEndsItsBlock : Prop :=
  ∀ s : State, s.dec.phase = .busy → s.dec.st = .hdr → s.dec.rd < s.dec.inLen →
    Memory.read s.decIn s.dec.rd = some 0x01#8 →
    (s.dec.rd + 1 = s.dec.inLen → ∃ t, exec .blkEmpty s = .next t ∧
      t.dec = { s.dec with code := 1#8, rem := 0#8, rd := s.dec.rd + 1 } ∧ DecFrame s t ∧ t.draws = s.draws ∧
      t.decOut = s.decOut) ∧
    (s.dec.rd + 1 ≠ s.dec.inLen → s.dec.wr < s.dec.outCap → ∃ t, exec .blkEmpty s = .next t ∧
      t.dec = { s.dec with code := 1#8, rem := 0#8, rd := s.dec.rd + 1, wr := s.dec.wr + 1 } ∧ DecFrame s t ∧
      t.draws = s.draws ∧ Memory.read t.decOut s.dec.wr = some 0x00#8 ∧
      ∀ i, i ≠ s.dec.wr → Memory.read t.decOut i = Memory.read s.decOut i)

/-- R99, the header: `BLK.SHORT` opens a block of `n - 1` data bytes or overruns.  That `MalformedEntry` keeps the
other registers at `DONE` is the model's choice (notes/assumptions/10.md and 13.md). -/
def Obligations.BlkShortOpensOrOverruns : Prop :=
  ∀ (s : State) (n : Byte), s.dec.phase = .busy → s.dec.st = .hdr → s.dec.rd < s.dec.inLen →
    Memory.read s.decIn s.dec.rd = some n → 2 ≤ n.toNat → n.toNat ≤ 254 →
    (s.dec.rd + n.toNat ≤ s.dec.inLen → ∃ t, exec (.blkShort n) s = .next t ∧
      t.dec = { s.dec with code := n, rem := n - 1#8, rd := s.dec.rd + 1, st := .data } ∧
      t.dec.rem.toNat = n.toNat - 1 ∧ DecFrame s t ∧ t.draws = s.draws ∧ t.decOut = s.decOut) ∧
    (s.dec.inLen < s.dec.rd + n.toNat → ∃ t, exec (.blkShort n) s = .next t ∧ MalformedEntry s t)

/-- R100, the header: `BLK.FULL` opens a block of 254 data bytes or overruns.  That `MalformedEntry` keeps the
other registers at `DONE` is the model's choice (notes/assumptions/10.md and 13.md). -/
def Obligations.BlkFullOpensOrOverruns : Prop :=
  ∀ s : State, s.dec.phase = .busy → s.dec.st = .hdr → s.dec.rd < s.dec.inLen →
    Memory.read s.decIn s.dec.rd = some 0xFF#8 →
    (s.dec.rd + 255 ≤ s.dec.inLen → ∃ t, exec .blkFull s = .next t ∧
      t.dec = { s.dec with code := 0xFF#8, rem := 254#8, rd := s.dec.rd + 1, st := .data } ∧ DecFrame s t ∧
      t.draws = s.draws ∧ t.decOut = s.decOut) ∧
    (s.dec.inLen < s.dec.rd + 255 → ∃ t, exec .blkFull s = .next t ∧ MalformedEntry s t)

/-- R102, with BLOCK_END of R101: DEC.DATA copies a data byte, and after a block's last one writes the
implied zero of a short block that is not final; a zero data byte is malformed.  That `MalformedEntry` keeps the other registers at `DONE` is
the model's choice (notes/assumptions/10.md and 13.md). -/
def Obligations.DecDataCopiesOrRaises : Prop :=
  ∀ (s : State) (b : Byte), s.dec.phase = .busy → s.dec.st = .data → 1 ≤ s.dec.rem.toNat →
    s.dec.rd < s.dec.inLen → Memory.read s.decIn s.dec.rd = some b →
    (b = 0x00#8 → ∃ t, exec .decData s = .next t ∧ MalformedEntry s t) ∧
    (b ≠ 0x00#8 → 2 ≤ s.dec.rem.toNat → s.dec.wr < s.dec.outCap → ∃ t, exec .decData s = .next t ∧
      t.dec = { s.dec with wr := s.dec.wr + 1, rd := s.dec.rd + 1, rem := s.dec.rem - 1#8 } ∧
      t.dec.rem.toNat = s.dec.rem.toNat - 1 ∧ DecFrame s t ∧ t.draws = s.draws ∧
      Memory.read t.decOut s.dec.wr = some b ∧
      ∀ i, i ≠ s.dec.wr → Memory.read t.decOut i = Memory.read s.decOut i) ∧
    (b ≠ 0x00#8 → s.dec.rem.toNat = 1 → (s.dec.code = 0xFF#8 ∨ s.dec.rd + 1 = s.dec.inLen) → s.dec.wr < s.dec.outCap →
      ∃ t, exec .decData s = .next t ∧
      t.dec = { s.dec with wr := s.dec.wr + 1, rd := s.dec.rd + 1, rem := 0#8, st := .hdr } ∧ DecFrame s t ∧
      t.draws = s.draws ∧ Memory.read t.decOut s.dec.wr = some b ∧
      ∀ i, i ≠ s.dec.wr → Memory.read t.decOut i = Memory.read s.decOut i) ∧
    (b ≠ 0x00#8 → s.dec.rem.toNat = 1 → s.dec.code ≠ 0xFF#8 → s.dec.rd + 1 ≠ s.dec.inLen →
      s.dec.wr + 1 < s.dec.outCap →
      ∃ t, exec .decData s = .next t ∧
      t.dec = { s.dec with wr := s.dec.wr + 2, rd := s.dec.rd + 1, rem := 0#8, st := .hdr } ∧ DecFrame s t ∧
      t.draws = s.draws ∧ Memory.read t.decOut s.dec.wr = some b ∧
      Memory.read t.decOut (s.dec.wr + 1) = some 0x00#8 ∧
      ∀ i, i ≠ s.dec.wr → i ≠ s.dec.wr + 1 → Memory.read t.decOut i = Memory.read s.decOut i)

/-- R103: DEC.FINISH.  That `IN_LEN`, `OUT_CAP` and the working registers keep their values at `DONE` is the
model's choice (notes/assumptions/10.md and 13.md). -/
def Obligations.DecFinishReportsTheLength : Prop :=
  ∀ s : State, s.dec.phase = .busy → s.dec.st = .hdr → s.dec.rd = s.dec.inLen →
    ∃ t, exec .decFinish s = .next t ∧ t.dec = { s.dec with outLen := s.dec.wr, phase := .done } ∧
      DecFrame s t ∧ t.draws = s.draws ∧ t.decOut = s.decOut

/-- R96: what the four length-byte rows do is the pseudocode common to them. -/
def Obligations.LengthByteRowsMatchHeaderStep : Prop :=
  ∀ (s : State) (n : Byte), decHdrReady n s = true → exec (decodeLengthByte n) s = decHdr n s

/-- R104: where a length byte is read, the clause `n != 1` never changes the outcome of the overrun test. -/
def Obligations.OverrunClauseForOneIsDead : Prop :=
  ∀ (N p : Nat) (n : Byte), p < N → (overruns N p n && n != 0x01#8) = overruns N p n

/-- R124, R117: the effect of the one exception, the same for every cause; `IN` and the bytes of `DEC.OUT`
from `IN_LEN - 1` on are unchanged, and every byte below is the next free value, whatever the count of
draws (the form of the free value is the model's own, notes/assumptions/4.md).  That the other registers keep
their values at `DONE` is the model's choice (notes/assumptions/10.md and 13.md). -/
def Obligations.MalformedFrameEntryVoidsThePrefix : Prop :=
  ∀ (c c' : Cause) (s : State), raiseMalformed c s = raiseMalformed c' s ∧
    MalformedEntry s (raiseMalformed c s) ∧
    ∀ i, i < s.dec.inLen - 1 → Memory.read (raiseMalformed c s).decOut i = some (Config.freeByte (s.draws + i))

/-! ### Commands, turns and host moves -/

/-- R148: a START or an operation issued to a BUSY unit has no effect.  R148 also calls it refused; that the
machine then goes on, answering `next` with the same state and no refusal, is the model's reading (DEDUCED,
unsafe, notes/assumptions/5.md). -/
def Obligations.StartOnBusyUnitHasNoEffect : Prop :=
  ∀ (s : State) (len cap : Nat),
    (s.enc.phase = .busy → exec (.encStart len cap) s = .next s ∧ exec (.encode len cap) s = .next s) ∧
    (s.dec.phase = .busy → exec (.decStart len cap) s = .next s ∧ exec (.decode len cap) s = .next s)

/-- R120: a START on a unit that is not BUSY with a length above `MAX_LEN`, or with less output capacity than
R51 (ENC) or R52 (DEC) asks for, is refused.  Which refusal is named when several preconditions are broken at
once (the length before the capacity before unwritten input) is the model's order, on which R120 is silent
(DEDUCED, notes/assumptions/5.md). -/
def Obligations.UndersizedStartIsRefused : Prop :=
  ∀ (s : State) (len cap : Nat),
    (s.enc.phase ≠ .busy → lengthOk s len = false →
      exec (.encStart len cap) s = .refused .lengthAboveMax ∧ exec (.encode len cap) s = .refused .lengthAboveMax) ∧
    (s.dec.phase ≠ .busy → lengthOk s len = false →
      exec (.decStart len cap) s = .refused .lengthAboveMax ∧ exec (.decode len cap) s = .refused .lengthAboveMax) ∧
    (s.enc.phase ≠ .busy → lengthOk s len = true → cap < encBound len →
      exec (.encStart len cap) s = .refused .outputUndersized ∧ exec (.encode len cap) s = .refused .outputUndersized) ∧
    (s.dec.phase ≠ .busy → lengthOk s len = true → cap < len →
      exec (.decStart len cap) s = .refused .outputUndersized ∧ exec (.decode len cap) s = .refused .outputUndersized)

/-- R41: a START over an input byte that the host never wrote is refused.  R41 refuses an operation that would
read such a byte; refusing also a DECODE that would fail before it reaches the byte is the model's reading
(DEDUCED, notes/assumptions/5.md; U8 supports it), and so is the order of the tests. -/
def Obligations.StartOverUnwrittenInputIsRefused : Prop :=
  ∀ (s : State) (len cap i : Nat), i < len → lengthOk s len = true →
    (s.enc.phase ≠ .busy → encBound len ≤ cap → Memory.read s.encIn i = none →
      exec (.encStart len cap) s = .refused .inputNotWritten ∧ exec (.encode len cap) s = .refused .inputNotWritten) ∧
    (s.dec.phase ≠ .busy → len ≤ cap → Memory.read s.decIn i = none →
      exec (.decStart len cap) s = .refused .inputNotWritten ∧ exec (.decode len cap) s = .refused .inputNotWritten)

/-- R81: on ENC's turn the step runs the one instruction that `rd`, `IN_LEN`, the counter and the byte at
`rd` select, on the state with that turn consumed. -/
def Obligations.EncTurnRunsTheSelectedStep : Prop :=
  ∀ (s : State) (ts : List Turn), s.turns = .unit .enc :: ts → s.enc.phase = .busy →
    (s.enc.rd = s.enc.inLen → step s = exec .encFinish (s.setTurns ts)) ∧
    ∀ b, s.enc.rd < s.enc.inLen → Memory.read s.encIn s.enc.rd = some b →
      (b = 0x00#8 → step s = exec .encZero (s.setTurns ts)) ∧
      (b ≠ 0x00#8 → s.enc.cnt.toNat ≤ 253 → step s = exec (.encData b) (s.setTurns ts)) ∧
      (b ≠ 0x00#8 → s.enc.cnt.toNat = 254 → step s = exec (.encCap b) (s.setTurns ts))

/-- R95: on DEC's turn the step runs the one instruction that `st`, `rd`, `IN_LEN` and the length byte at
`rd` select, on the state with that turn consumed. -/
def Obligations.DecTurnRunsTheSelectedStep : Prop :=
  ∀ (s : State) (ts : List Turn), s.turns = .unit .dec :: ts → s.dec.phase = .busy →
    (s.dec.st = .data → step s = exec .decData (s.setTurns ts)) ∧
    (s.dec.st = .hdr → s.dec.rd = s.dec.inLen → step s = exec .decFinish (s.setTurns ts)) ∧
    ∀ n, s.dec.st = .hdr → s.dec.rd < s.dec.inLen → Memory.read s.decIn s.dec.rd = some n →
      step s = exec (decodeLengthByte n) (s.setTurns ts)

/-- R34, R76: the unit a host command addresses selects the operation, and the step runs it. -/
def Obligations.HostCommandRunsItsInstruction : Prop :=
  ∀ (s : State) (ts : List Turn) (len cap : Nat),
    (s.turns = .host (.start .enc len cap) :: ts → step s = exec (.encStart len cap) (s.setTurns ts)) ∧
    (s.turns = .host (.start .dec len cap) :: ts → step s = exec (.decStart len cap) (s.setTurns ts)) ∧
    (s.turns = .host (.operate .enc len cap) :: ts → step s = exec (.encode len cap) (s.setTurns ts)) ∧
    (s.turns = .host (.operate .dec len cap) :: ts → step s = exec (.decode len cap) (s.setTurns ts))

/-- R135, R142: with no turn left a BUSY unit goes on without the host, and when no unit is BUSY nothing
changes.  That ENC goes before DEC is the model's choice (notes/assumptions/7.md). -/
def Obligations.UnitsRunOnWithoutTurns : Prop :=
  ∀ s : State, s.turns = [] →
    (s.enc.phase = .busy → step s = step (s.setTurns [.unit .enc])) ∧
    (s.enc.phase ≠ .busy → s.dec.phase = .busy → step s = step (s.setTurns [.unit .dec])) ∧
    (s.enc.phase ≠ .busy → s.dec.phase ≠ .busy → step s = .next s)

/-- R81, R95: a step of a unit that is not BUSY is not enabled, and a turn of that unit does nothing. -/
def Obligations.NoStepOfAUnitThatIsNotBusy : Prop :=
  (∀ (s : State) (b : Byte), s.enc.phase ≠ .busy →
    exec .encZero s = .refused .stepNotEnabled ∧ exec (.encData b) s = .refused .stepNotEnabled ∧
    exec (.encCap b) s = .refused .stepNotEnabled ∧ exec .encFinish s = .refused .stepNotEnabled) ∧
  (∀ (s : State) (n : Byte), s.dec.phase ≠ .busy →
    exec .blkIllegal s = .refused .stepNotEnabled ∧ exec .blkEmpty s = .refused .stepNotEnabled ∧
    exec (.blkShort n) s = .refused .stepNotEnabled ∧ exec .blkFull s = .refused .stepNotEnabled ∧
    exec .decData s = .refused .stepNotEnabled ∧ exec .decFinish s = .refused .stepNotEnabled) ∧
  (∀ (s : State) (ts : List Turn) (u : UnitId), s.turns = .unit u :: ts → s.phaseOf u ≠ .busy →
    step s = .next (s.setTurns ts))

/-- R136, R138: the reset event acts on both units at once; a unit it interrupts leaves free values in the
range it could have written, and every other buffer byte is untouched. -/
def Obligations.ResetEventClearsBothUnits : Prop :=
  ∀ (s : State) (ts : List Turn), s.turns = .host .reset :: ts →
    ∃ t, step s = .next t ∧ t.enc.phase = .idle ∧ t.dec.phase = .idle ∧ t.enc.outLen = 0 ∧ t.dec.outLen = 0 ∧
      t.dec.fail = false ∧ encStatus t = ⟨false, false, false⟩ ∧ decStatus t = ⟨false, false, false⟩ ∧
      t.encIn = s.encIn ∧ t.decIn = s.decIn ∧ t.turns = ts ∧ t.maxLen = s.maxLen ∧
      (s.enc.phase ≠ .busy → t.encOut = s.encOut) ∧ (s.dec.phase ≠ .busy → t.decOut = s.decOut) ∧
      Memory.AgreeFrom (encBound s.enc.inLen) s.encOut t.encOut ∧
      Memory.AgreeFrom (s.dec.inLen - 1) s.decOut t.decOut

/-- R40, R122: the host writes one byte of a space whose unit is not BUSY; it has no such move on a BUSY
unit. -/
def Obligations.HostWriteNeedsAnIdleUnit : Prop :=
  ∀ (s : State) (ts : List Turn) (sp : Space) (i : Nat) (v : Byte), s.turns = .host (.write sp i v) :: ts →
    (s.phaseOf sp.owner = .busy → step s = .refused .hostWriteWhileBusy) ∧
    (s.phaseOf sp.owner ≠ .busy → ∃ t, step s = .next t ∧ Memory.read (t.space sp) i = some v ∧
      (∀ j, j ≠ i → Memory.read (t.space sp) j = Memory.read (s.space sp) j) ∧
      (∀ sp', sp' ≠ sp → t.space sp' = s.space sp') ∧ t.enc = s.enc ∧ t.dec = s.dec ∧ t.turns = ts ∧
      t.draws = s.draws ∧ t.maxLen = s.maxLen)

/-- R33, R119: the status bits follow the phase, `BUSY` and `DONE` are never both 1, and ENC's `FAIL` is
hardwired 0; `FAIL == 1` implies `DONE == 1` in every state that meets the invariant. -/
def Obligations.StatusBitsFollowThePhase : Prop :=
  ∀ s : State,
    ((encStatus s).busy = true ↔ s.enc.phase = .busy) ∧ ((encStatus s).done = true ↔ s.enc.phase = .done) ∧
    ((decStatus s).busy = true ↔ s.dec.phase = .busy) ∧ ((decStatus s).done = true ↔ s.dec.phase = .done) ∧
    ¬((encStatus s).busy = true ∧ (encStatus s).done = true) ∧
    ¬((decStatus s).busy = true ∧ (decStatus s).done = true) ∧
    (((encStatus s).busy = false ∧ (encStatus s).done = false) ↔ s.enc.phase = .idle) ∧
    (((decStatus s).busy = false ∧ (decStatus s).done = false) ↔ s.dec.phase = .idle) ∧
    (encStatus s).fail = false ∧ (MachineInv s → (decStatus s).fail = true → (decStatus s).done = true)

/-! ### Frames and invariants -/

/-- R14, R40, R61: an instruction changes no `IN` space and nothing of the other unit. -/
def Obligations.InstructionsKeepToTheirUnit : Prop :=
  ∀ (i : Instr) (s t : State), exec i s = .next t →
    (unitOf i = .enc → EncFrame s t) ∧ (unitOf i = .dec → DecFrame s t)

/-- Every step keeps the machine's invariant: the canonical form of the four spaces, R86 I1, I2, I3, I6,
I7, R105 J1, J2, `FAIL` only with `DONE` (R33), and what START checked. -/
def Obligations.StepKeepsMachineInvariant : Prop :=
  ∀ s t : State, MachineInv s → step s = .next t → MachineInv t

/-- From a state that meets the invariant no step faults, and only a host move is refused: no unit reads
outside its input or writes outside its output buffer (R41, R47 to R50), and a BUSY unit is never stuck. -/
def Obligations.InvariantRulesOutUnitStops : Prop :=
  ∀ s : State, MachineInv s →
    (∀ f, step s ≠ .fault f) ∧ (∀ r, step s = .refused r → HostTurnNext s)

/-- R86 I4, I5: what ENC has written so far is kept by every step of an operation.  It is an invariant of the
run: decision D2 gives the host no use of these bytes before `DONE`. -/
def Obligations.StepKeepsEncodedContent : Prop :=
  ∀ s t : State, EncInv s → EncContent s → step s = .next t → EncContent t

/-- R50, R105 J3: no step of a BUSY DEC writes an index above `IN_LEN - 2`, and `wr <= rd` stays. -/
def Obligations.DecStepsWriteBelowInputLength : Prop :=
  ∀ (s t : State) (i : Instr), DecInv s → selectDec s = .next i → exec i s = .next t →
    Memory.AgreeFrom (s.dec.inLen - 1) s.decOut t.decOut ∧ t.dec.wr ≤ t.dec.rd

/-! ### The operations as a whole -/

/-- R90: an accepted ENCODE ends with the frame `enc(X)` as its result, and no other byte is changed.
That `IN_LEN` and `OUT_CAP` still hold the arguments at `DONE` is the model's choice (notes/assumptions/13.md). -/
def Obligations.EncodeProducesTheCanonicalFrame : Prop :=
  ∀ (s : State) (X : List Byte) (cap : Nat), Accepts .enc X cap s →
    ∃ t, exec (.encode X.length cap) s = .next t ∧ encStatus t = ⟨false, true, false⟩ ∧
      HasResult .enc (enc X) t ∧ t.enc.inLen = X.length ∧ t.enc.outCap = cap ∧ EncFrame s t ∧
      Memory.AgreeFrom (enc X).length s.encOut t.encOut

/-- R110: an accepted DECODE ends with `dec(E)` as its result and no other byte changed, or with `FAIL`,
`OUT_LEN` 0 and `DEC.OUT` unchanged from `IN_LEN - 1` on.  That `IN_LEN` and `OUT_CAP` still hold the arguments at
`DONE` is the model's choice (notes/assumptions/13.md). -/
def Obligations.DecodeProducesTheRawBytesOrFails : Prop :=
  ∀ (s : State) (E : List Byte) (cap : Nat), Accepts .dec E cap s →
    ∃ t, exec (.decode E.length cap) s = .next t ∧ t.dec.inLen = E.length ∧ t.dec.outCap = cap ∧ DecFrame s t ∧
      (∀ X, dec E = some X → decStatus t = ⟨false, true, false⟩ ∧ HasResult .dec X t ∧
        Memory.AgreeFrom X.length s.decOut t.decOut) ∧
      (dec E = none → decStatus t = ⟨false, true, true⟩ ∧ t.dec.outLen = 0 ∧
        Memory.AgreeFrom (E.length - 1) s.decOut t.decOut)

/-- R90: between ENC.START and ENC.FINISH an accepted ENCODE takes exactly `IN_LEN` byte steps. -/
def Obligations.EncodeTakesOneStepPerByte : Prop :=
  ∀ (s : State) (X : List Byte) (cap k : Nat), Accepts .enc X cap s → k ≤ X.length →
    ∃ t, runUnit .enc k (encBegin X.length cap s) = .next t ∧ t.enc.phase = .busy ∧ t.enc.rd = k

/-- R90, R151: the host's START followed by the machine's own steps, one per input byte and one to finish,
ends in the very state of the atomic ENCODE.  DEC may be BUSY here: that ENC takes every one of these steps
then rests on ENC moving before DEC, the model's choice (DESIGN CHOICE, notes/assumptions/7.md). -/
def Obligations.SteppedEncodeEqualsAtomicEncode : Prop :=
  ∀ (s : State) (X : List Byte) (cap : Nat), Accepts .enc X cap s →
    s.turns = [.host (.start .enc X.length cap)] →
    (Host.Core.run Sys2Proof.core (X.length + 2) s : Result) = exec (.encode X.length cap) (s.setTurns [])

/-- R110, R151: the same for DECODE while ENC is not BUSY; a failing run is shorter and then stays DONE. -/
def Obligations.SteppedDecodeEqualsAtomicDecode : Prop :=
  ∀ (s : State) (E : List Byte) (cap : Nat), Accepts .dec E cap s → s.enc.phase ≠ .busy →
    s.turns = [.host (.start .dec E.length cap)] →
    (Host.Core.run Sys2Proof.core (E.length + 2) s : Result) = exec (.decode E.length cap) (s.setTurns [])

/-- R90, R110, R151: a BUSY unit is DONE after at most one step per byte it has left and one to finish. -/
def Obligations.BusyUnitFinishesInBoundedSteps : Prop :=
  ∀ s : State, MachineInv s →
    (s.enc.phase = .busy → ∃ t, runUnit .enc (s.enc.inLen - s.enc.rd + 1) s = .next t ∧ t.enc.phase = .done) ∧
    (s.dec.phase = .busy → ∃ t, runUnit .dec (s.dec.inLen - s.dec.rd + 1) s = .next t ∧ t.dec.phase = .done)

/-- R133: the units' moves commute, so their interleaving cannot be observed. -/
def Obligations.UnitMovesCommute : Prop :=
  ∀ s a b : State, unitTurn .enc s = .next a → unitTurn .dec s = .next b →
    ∃ t, unitTurn .dec a = .next t ∧ unitTurn .enc b = .next t

/-- R15: the result of an operation depends only on its input: two systems that agree on nothing else end
with the same result. -/
def Obligations.ResultDependsOnlyOnTheInput : Prop :=
  ∀ (s s' : State) (X : List Byte) (cap cap' : Nat),
    (Accepts .enc X cap s → Accepts .enc X cap' s' →
      ∃ t t', exec (.encode X.length cap) s = .next t ∧ exec (.encode X.length cap') s' = .next t' ∧
        t.enc.outLen = t'.enc.outLen ∧
        ∀ i, i < t.enc.outLen → Memory.read t.encOut i = Memory.read t'.encOut i) ∧
    (Accepts .dec X cap s → Accepts .dec X cap' s' →
      ∃ t t', exec (.decode X.length cap) s = .next t ∧ exec (.decode X.length cap') s' = .next t' ∧
        t.dec.fail = t'.dec.fail ∧ t.dec.outLen = t'.dec.outLen ∧
        ∀ i, i < t.dec.outLen → Memory.read t.decOut i = Memory.read t'.decOut i)

/-! ### The functional forms -/

/-- R108: decoding the frame of any raw buffer gives it back. -/
def Obligations.DecodeOfEncodedReturnsTheInput : Prop := ∀ X : List Byte, dec (enc X) = some X

/-- R88 P1: no byte of an encoded buffer is 0x00. -/
def Obligations.EncodedFrameHoldsNoZero : Prop := ∀ X : List Byte, 0x00#8 ∉ enc X

/-- R87: the exact length of the frame and its bounds. -/
def Obligations.EncodedLengthIsExact : Prop :=
  ∀ X : List Byte, (enc X).length = X.length + fullBlocks X + finalClose X ∧
    X.length + 1 ≤ (enc X).length ∧ (enc X).length ≤ encBound X.length

/-- R107: which frames DECODE accepts. -/
def Obligations.AcceptedFramesAreTheZeroFreeWalks : Prop :=
  ∀ E : List Byte, (dec E).isSome = true ↔ E ≠ [] ∧ 0x00#8 ∉ E ∧ (frameCodes E).isSome = true

/-- R109: the length of the raw bytes: one less for every full block that is not the final one. -/
def Obligations.DecodedLengthIsExact : Prop :=
  ∀ E X : List Byte, dec E = some X →
    ∃ codes, frameCodes E = some codes ∧ X.length + 1 + codes.dropLast.count 0xFF#8 = E.length ∧
      (X = [] ↔ E = [0x01#8])

/-- R74: the accepted frames that ENC never produces are exactly the `E ++ [0x01]` with `E` an accepted
frame whose last block is full, and such a frame decodes to the same bytes as `E`. -/
def Obligations.NonCanonicalFramesEndInAnEmptyBlock : Prop :=
  ∀ F X : List Byte, dec F = some X →
    (enc X ≠ F ↔ ∃ E codes, F = E ++ [0x01#8] ∧ dec E = some X ∧ frameCodes E = some codes ∧
      codes.getLast? = some 0xFF#8)
end

