-- ==== Sys2Proof/Laws/Memory.lean ====
section
/-! SUPPORT. The laws of the buffer spaces: read after write, and the canonical form kept by every operation. -/

namespace Sys2Proof.Machine

@[simp] theorem read_nil (i : Nat) : Memory.read [] i = none := rfl

theorem read_cons (a : Nat) (v : Byte) (m : Memory) (i : Nat) :
    Memory.read ((a, v) :: m) i = if i = a then some v else Memory.read m i := rfl

theorem read_write (m : Memory) (i j : Nat) (v : Byte) :
    Memory.read (Memory.write m i v) j = if j = i then some v else Memory.read m j := by
  induction m with
  | nil => rfl
  | cons c m ih =>
    obtain ⟨a, w⟩ := c
    simp only [Memory.write]
    split
    · simp only [read_cons]
    · split
      · subst_vars
        simp only [read_cons]
        split <;> rfl
      · simp only [read_cons, ih]
        split
        · subst_vars
          rw [if_neg (by omega)]
        · rfl

@[simp] theorem read_write_same (m : Memory) (i : Nat) (v : Byte) : Memory.read (Memory.write m i v) i = some v := by
  simp [read_write]

theorem read_write_other (m : Memory) {i j : Nat} (v : Byte) (h : j ≠ i) :
    Memory.read (Memory.write m i v) j = Memory.read m j := by
  simp [read_write, h]

/-- A listed index of a space after a write was listed before or is the one written. -/
theorem mem_write {m : Memory} {i : Nat} {v : Byte} {c : Host.Cell} (h : c ∈ Memory.write m i v) :
    c.1 = i ∨ c ∈ m := by
  induction m with
  | nil => simp_all [Memory.write]
  | cons d m ih =>
    obtain ⟨a, w⟩ := d
    simp only [Memory.write] at h
    split at h
    · simp only [List.mem_cons] at h ⊢
      rcases h with h | h
      · exact .inl (by simp [h])
      · exact .inr h
    · split at h
      · simp only [List.mem_cons] at h ⊢
        rcases h with h | h
        · exact .inl (by simp [h])
        · exact .inr (.inr h)
      · simp only [List.mem_cons] at h ⊢
        rcases h with h | h
        · exact .inr (.inl h)
        · rcases ih h with h | h
          · exact .inl h
          · exact .inr (.inr h)

theorem wf_nil : Memory.wf [] := List.Pairwise.nil

/-- A write keeps the canonical form. -/
theorem wf_write {m : Memory} (h : Memory.wf m) (i : Nat) (v : Byte) : Memory.wf (Memory.write m i v) := by
  induction m with
  | nil => exact List.pairwise_singleton _ _
  | cons c m ih =>
    obtain ⟨a, w⟩ := c
    obtain ⟨ha, hm⟩ := List.pairwise_cons.mp h
    simp only [Memory.write]
    split
    · next hlt =>
      refine List.pairwise_cons.mpr ⟨fun c hc => ?_, h⟩
      rcases List.mem_cons.mp hc with rfl | hc
      · exact hlt
      · exact Nat.lt_trans hlt (ha c hc)
    · split
      · next heq =>
        subst heq
        exact List.pairwise_cons.mpr ⟨ha, hm⟩
      · next hlt hne =>
        refine List.pairwise_cons.mpr ⟨fun c hc => ?_, ih hm⟩
        rcases mem_write hc with h' | h'
        · simp only [h']
          omega
        · exact ha c h'

theorem read_fill (m : Memory) (n : Nat) (f : Nat → Byte) (i : Nat) :
    Memory.read (Memory.fill m n f) i = if i < n then some (f i) else Memory.read m i := by
  induction n with
  | zero => simp [Memory.fill]
  | succ n ih =>
    simp only [Memory.fill, read_write, ih]
    split
    · subst_vars
      simp
    · simp only [show (i < n + 1) = (i < n) from propext (by omega)]

theorem wf_fill {m : Memory} (h : Memory.wf m) (n : Nat) (f : Nat → Byte) : Memory.wf (Memory.fill m n f) := by
  induction n with
  | zero => exact h
  | succ n ih => exact wf_write ih n _

theorem allWritten_iff (m : Memory) (n : Nat) : Memory.allWritten m n = true ↔ Memory.WrittenBelow m n := by
  simp [Memory.allWritten, Memory.WrittenBelow]

theorem writtenBelow_of_hasBytes {m : Memory} {X : List Byte} (h : Memory.HasBytes m X) :
    Memory.WrittenBelow m X.length := by
  intro i hi
  rw [h i hi]
  simp [hi]

theorem read_of_hasBytes {m : Memory} {X : List Byte} (h : Memory.HasBytes m X) {i : Nat} (hi : i < X.length) :
    Memory.read m i = some X[i] := by
  rw [h i hi]
  simp [hi]

end Sys2Proof.Machine
end

