-- ==== Sys2Proof/Laws/State.lean ====
section
/-! SUPPORT. One lemma per field per update of the state, and the views by unit and by space. -/

namespace Sys2Proof.Machine

@[simp] theorem setEnc_enc (s : State) (e : EncRegs) : (s.setEnc e).enc = e := rfl
@[simp] theorem setEnc_dec (s : State) (e : EncRegs) : (s.setEnc e).dec = s.dec := rfl
@[simp] theorem setEnc_encIn (s : State) (e : EncRegs) : (s.setEnc e).encIn = s.encIn := rfl
@[simp] theorem setEnc_encOut (s : State) (e : EncRegs) : (s.setEnc e).encOut = s.encOut := rfl
@[simp] theorem setEnc_decIn (s : State) (e : EncRegs) : (s.setEnc e).decIn = s.decIn := rfl
@[simp] theorem setEnc_decOut (s : State) (e : EncRegs) : (s.setEnc e).decOut = s.decOut := rfl
@[simp] theorem setEnc_turns (s : State) (e : EncRegs) : (s.setEnc e).turns = s.turns := rfl
@[simp] theorem setEnc_draws (s : State) (e : EncRegs) : (s.setEnc e).draws = s.draws := rfl
@[simp] theorem setEnc_maxLen (s : State) (e : EncRegs) : (s.setEnc e).maxLen = s.maxLen := rfl

@[simp] theorem setDec_enc (s : State) (d : DecRegs) : (s.setDec d).enc = s.enc := rfl
@[simp] theorem setDec_dec (s : State) (d : DecRegs) : (s.setDec d).dec = d := rfl
@[simp] theorem setDec_encIn (s : State) (d : DecRegs) : (s.setDec d).encIn = s.encIn := rfl
@[simp] theorem setDec_encOut (s : State) (d : DecRegs) : (s.setDec d).encOut = s.encOut := rfl
@[simp] theorem setDec_decIn (s : State) (d : DecRegs) : (s.setDec d).decIn = s.decIn := rfl
@[simp] theorem setDec_decOut (s : State) (d : DecRegs) : (s.setDec d).decOut = s.decOut := rfl
@[simp] theorem setDec_turns (s : State) (d : DecRegs) : (s.setDec d).turns = s.turns := rfl
@[simp] theorem setDec_draws (s : State) (d : DecRegs) : (s.setDec d).draws = s.draws := rfl
@[simp] theorem setDec_maxLen (s : State) (d : DecRegs) : (s.setDec d).maxLen = s.maxLen := rfl

@[simp] theorem setTurns_enc (s : State) (ts : List Turn) : (s.setTurns ts).enc = s.enc := rfl
@[simp] theorem setTurns_dec (s : State) (ts : List Turn) : (s.setTurns ts).dec = s.dec := rfl
@[simp] theorem setTurns_encIn (s : State) (ts : List Turn) : (s.setTurns ts).encIn = s.encIn := rfl
@[simp] theorem setTurns_encOut (s : State) (ts : List Turn) : (s.setTurns ts).encOut = s.encOut := rfl
@[simp] theorem setTurns_decIn (s : State) (ts : List Turn) : (s.setTurns ts).decIn = s.decIn := rfl
@[simp] theorem setTurns_decOut (s : State) (ts : List Turn) : (s.setTurns ts).decOut = s.decOut := rfl
@[simp] theorem setTurns_turns (s : State) (ts : List Turn) : (s.setTurns ts).turns = ts := rfl
@[simp] theorem setTurns_draws (s : State) (ts : List Turn) : (s.setTurns ts).draws = s.draws := rfl
@[simp] theorem setTurns_maxLen (s : State) (ts : List Turn) : (s.setTurns ts).maxLen = s.maxLen := rfl

@[simp] theorem setDraws_enc (s : State) (n : Nat) : (s.setDraws n).enc = s.enc := rfl
@[simp] theorem setDraws_dec (s : State) (n : Nat) : (s.setDraws n).dec = s.dec := rfl
@[simp] theorem setDraws_encIn (s : State) (n : Nat) : (s.setDraws n).encIn = s.encIn := rfl
@[simp] theorem setDraws_encOut (s : State) (n : Nat) : (s.setDraws n).encOut = s.encOut := rfl
@[simp] theorem setDraws_decIn (s : State) (n : Nat) : (s.setDraws n).decIn = s.decIn := rfl
@[simp] theorem setDraws_decOut (s : State) (n : Nat) : (s.setDraws n).decOut = s.decOut := rfl
@[simp] theorem setDraws_turns (s : State) (n : Nat) : (s.setDraws n).turns = s.turns := rfl
@[simp] theorem setDraws_draws (s : State) (n : Nat) : (s.setDraws n).draws = n := rfl
@[simp] theorem setDraws_maxLen (s : State) (n : Nat) : (s.setDraws n).maxLen = s.maxLen := rfl

@[simp] theorem setSpace_encIn_enc (s : State) (m : Memory) : (s.setSpace .encIn m).enc = s.enc := rfl
@[simp] theorem setSpace_encIn_dec (s : State) (m : Memory) : (s.setSpace .encIn m).dec = s.dec := rfl
@[simp] theorem setSpace_encIn_encIn (s : State) (m : Memory) : (s.setSpace .encIn m).encIn = m := rfl
@[simp] theorem setSpace_encIn_encOut (s : State) (m : Memory) : (s.setSpace .encIn m).encOut = s.encOut := rfl
@[simp] theorem setSpace_encIn_decIn (s : State) (m : Memory) : (s.setSpace .encIn m).decIn = s.decIn := rfl
@[simp] theorem setSpace_encIn_decOut (s : State) (m : Memory) : (s.setSpace .encIn m).decOut = s.decOut := rfl
@[simp] theorem setSpace_encIn_turns (s : State) (m : Memory) : (s.setSpace .encIn m).turns = s.turns := rfl
@[simp] theorem setSpace_encIn_draws (s : State) (m : Memory) : (s.setSpace .encIn m).draws = s.draws := rfl
@[simp] theorem setSpace_encIn_maxLen (s : State) (m : Memory) : (s.setSpace .encIn m).maxLen = s.maxLen := rfl

@[simp] theorem setSpace_encOut_enc (s : State) (m : Memory) : (s.setSpace .encOut m).enc = s.enc := rfl
@[simp] theorem setSpace_encOut_dec (s : State) (m : Memory) : (s.setSpace .encOut m).dec = s.dec := rfl
@[simp] theorem setSpace_encOut_encIn (s : State) (m : Memory) : (s.setSpace .encOut m).encIn = s.encIn := rfl
@[simp] theorem setSpace_encOut_encOut (s : State) (m : Memory) : (s.setSpace .encOut m).encOut = m := rfl
@[simp] theorem setSpace_encOut_decIn (s : State) (m : Memory) : (s.setSpace .encOut m).decIn = s.decIn := rfl
@[simp] theorem setSpace_encOut_decOut (s : State) (m : Memory) : (s.setSpace .encOut m).decOut = s.decOut := rfl
@[simp] theorem setSpace_encOut_turns (s : State) (m : Memory) : (s.setSpace .encOut m).turns = s.turns := rfl
@[simp] theorem setSpace_encOut_draws (s : State) (m : Memory) : (s.setSpace .encOut m).draws = s.draws := rfl
@[simp] theorem setSpace_encOut_maxLen (s : State) (m : Memory) : (s.setSpace .encOut m).maxLen = s.maxLen := rfl

@[simp] theorem setSpace_decIn_enc (s : State) (m : Memory) : (s.setSpace .decIn m).enc = s.enc := rfl
@[simp] theorem setSpace_decIn_dec (s : State) (m : Memory) : (s.setSpace .decIn m).dec = s.dec := rfl
@[simp] theorem setSpace_decIn_encIn (s : State) (m : Memory) : (s.setSpace .decIn m).encIn = s.encIn := rfl
@[simp] theorem setSpace_decIn_encOut (s : State) (m : Memory) : (s.setSpace .decIn m).encOut = s.encOut := rfl
@[simp] theorem setSpace_decIn_decIn (s : State) (m : Memory) : (s.setSpace .decIn m).decIn = m := rfl
@[simp] theorem setSpace_decIn_decOut (s : State) (m : Memory) : (s.setSpace .decIn m).decOut = s.decOut := rfl
@[simp] theorem setSpace_decIn_turns (s : State) (m : Memory) : (s.setSpace .decIn m).turns = s.turns := rfl
@[simp] theorem setSpace_decIn_draws (s : State) (m : Memory) : (s.setSpace .decIn m).draws = s.draws := rfl
@[simp] theorem setSpace_decIn_maxLen (s : State) (m : Memory) : (s.setSpace .decIn m).maxLen = s.maxLen := rfl

@[simp] theorem setSpace_decOut_enc (s : State) (m : Memory) : (s.setSpace .decOut m).enc = s.enc := rfl
@[simp] theorem setSpace_decOut_dec (s : State) (m : Memory) : (s.setSpace .decOut m).dec = s.dec := rfl
@[simp] theorem setSpace_decOut_encIn (s : State) (m : Memory) : (s.setSpace .decOut m).encIn = s.encIn := rfl
@[simp] theorem setSpace_decOut_encOut (s : State) (m : Memory) : (s.setSpace .decOut m).encOut = s.encOut := rfl
@[simp] theorem setSpace_decOut_decIn (s : State) (m : Memory) : (s.setSpace .decOut m).decIn = s.decIn := rfl
@[simp] theorem setSpace_decOut_decOut (s : State) (m : Memory) : (s.setSpace .decOut m).decOut = m := rfl
@[simp] theorem setSpace_decOut_turns (s : State) (m : Memory) : (s.setSpace .decOut m).turns = s.turns := rfl
@[simp] theorem setSpace_decOut_draws (s : State) (m : Memory) : (s.setSpace .decOut m).draws = s.draws := rfl
@[simp] theorem setSpace_decOut_maxLen (s : State) (m : Memory) : (s.setSpace .decOut m).maxLen = s.maxLen := rfl

@[simp] theorem space_encIn (s : State) : s.space .encIn = s.encIn := rfl
@[simp] theorem space_encOut (s : State) : s.space .encOut = s.encOut := rfl
@[simp] theorem space_decIn (s : State) : s.space .decIn = s.decIn := rfl
@[simp] theorem space_decOut (s : State) : s.space .decOut = s.decOut := rfl

@[simp] theorem inSpace_enc : inSpace .enc = .encIn := rfl
@[simp] theorem outSpace_enc : outSpace .enc = .encOut := rfl
@[simp] theorem phaseOf_enc (s : State) : s.phaseOf .enc = s.enc.phase := rfl
@[simp] theorem inLenOf_enc (s : State) : s.inLenOf .enc = s.enc.inLen := rfl
@[simp] theorem outCapOf_enc (s : State) : s.outCapOf .enc = s.enc.outCap := rfl
@[simp] theorem inSpace_dec : inSpace .dec = .decIn := rfl
@[simp] theorem outSpace_dec : outSpace .dec = .decOut := rfl
@[simp] theorem phaseOf_dec (s : State) : s.phaseOf .dec = s.dec.phase := rfl
@[simp] theorem inLenOf_dec (s : State) : s.inLenOf .dec = s.dec.inLen := rfl
@[simp] theorem outCapOf_dec (s : State) : s.outCapOf .dec = s.dec.outCap := rfl
@[simp] theorem owner_encIn : Space.owner .encIn = .enc := rfl
@[simp] theorem owner_encOut : Space.owner .encOut = .enc := rfl
@[simp] theorem owner_decIn : Space.owner .decIn = .dec := rfl
@[simp] theorem owner_decOut : Space.owner .decOut = .dec := rfl

@[simp] theorem space_setEnc (s : State) (e : EncRegs) (sp : Space) : (s.setEnc e).space sp = s.space sp := by cases sp <;> rfl
@[simp] theorem space_setDec (s : State) (d : DecRegs) (sp : Space) : (s.setDec d).space sp = s.space sp := by cases sp <;> rfl
@[simp] theorem space_setTurns (s : State) (ts : List Turn) (sp : Space) : (s.setTurns ts).space sp = s.space sp := by cases sp <;> rfl
@[simp] theorem space_setDraws (s : State) (n : Nat) (sp : Space) : (s.setDraws n).space sp = s.space sp := by cases sp <;> rfl

@[simp] theorem space_setSpace_same (s : State) (sp : Space) (m : Memory) : (s.setSpace sp m).space sp = m := by
  cases sp <;> rfl

theorem space_setSpace_other (s : State) {sp sp' : Space} (h : sp' ≠ sp) (m : Memory) :
    (s.setSpace sp m).space sp' = s.space sp' := by
  cases sp <;> cases sp' <;> simp_all

@[simp] theorem setSpace_enc (s : State) (sp : Space) (m : Memory) : (s.setSpace sp m).enc = s.enc := by cases sp <;> rfl
@[simp] theorem setSpace_dec (s : State) (sp : Space) (m : Memory) : (s.setSpace sp m).dec = s.dec := by cases sp <;> rfl
@[simp] theorem setSpace_turns (s : State) (sp : Space) (m : Memory) : (s.setSpace sp m).turns = s.turns := by cases sp <;> rfl
@[simp] theorem setSpace_draws (s : State) (sp : Space) (m : Memory) : (s.setSpace sp m).draws = s.draws := by cases sp <;> rfl
@[simp] theorem setSpace_maxLen (s : State) (sp : Space) (m : Memory) : (s.setSpace sp m).maxLen = s.maxLen := by cases sp <;> rfl

@[simp] theorem setEnc_setEnc (s : State) (e f : EncRegs) : (s.setEnc e).setEnc f = s.setEnc f := rfl

@[simp] theorem setDec_setDec (s : State) (d e : DecRegs) : (s.setDec d).setDec e = s.setDec e := rfl

@[simp] theorem setTurns_setTurns (s : State) (ts us : List Turn) : (s.setTurns ts).setTurns us = s.setTurns us := rfl

@[simp] theorem phaseOf_setTurns (s : State) (ts : List Turn) (u : UnitId) : (s.setTurns ts).phaseOf u = s.phaseOf u := by cases u <;> rfl
@[simp] theorem phaseOf_setDraws (s : State) (n : Nat) (u : UnitId) : (s.setDraws n).phaseOf u = s.phaseOf u := by cases u <;> rfl
@[simp] theorem phaseOf_setSpace (s : State) (sp : Space) (m : Memory) (u : UnitId) : (s.setSpace sp m).phaseOf u = s.phaseOf u := by cases u <;> cases sp <;> rfl
@[simp] theorem inLenOf_setTurns (s : State) (ts : List Turn) (u : UnitId) : (s.setTurns ts).inLenOf u = s.inLenOf u := by cases u <;> rfl
@[simp] theorem inLenOf_setDraws (s : State) (n : Nat) (u : UnitId) : (s.setDraws n).inLenOf u = s.inLenOf u := by cases u <;> rfl
@[simp] theorem inLenOf_setSpace (s : State) (sp : Space) (m : Memory) (u : UnitId) : (s.setSpace sp m).inLenOf u = s.inLenOf u := by cases u <;> cases sp <;> rfl
@[simp] theorem outCapOf_setTurns (s : State) (ts : List Turn) (u : UnitId) : (s.setTurns ts).outCapOf u = s.outCapOf u := by cases u <;> rfl
@[simp] theorem outCapOf_setDraws (s : State) (n : Nat) (u : UnitId) : (s.setDraws n).outCapOf u = s.outCapOf u := by cases u <;> rfl
@[simp] theorem outCapOf_setSpace (s : State) (sp : Space) (m : Memory) (u : UnitId) : (s.setSpace sp m).outCapOf u = s.outCapOf u := by cases u <;> cases sp <;> rfl

end Sys2Proof.Machine
end

