-- ==== Sys2Proof/Laws/Ops.lean ====
section
/-! SUPPORT. What each shared operation can do, said once. -/

namespace Sys2Proof.Machine

/-! ### Sequencing -/

@[simp] theorem andThen_next {α β : Type} (a : α) (f : α → Host.Outcome β Fault Refusal) :
    andThen (.next a) f = f a := rfl

@[simp] theorem andThen_fault {α β : Type} (r : Fault) (f : α → Host.Outcome β Fault Refusal) :
    andThen (.fault r) f = .fault r := rfl

@[simp] theorem andThen_refused {α β : Type} (r : Refusal) (f : α → Host.Outcome β Fault Refusal) :
    andThen (.refused r) f = .refused r := rfl

theorem andThen_eq_next {α β : Type} {o : Host.Outcome α Fault Refusal} {f : α → Host.Outcome β Fault Refusal} {b : β} :
    andThen o f = .next b ↔ ∃ a, o = .next a ∧ f a = .next b := by
  cases o <;> simp

theorem andThen_assoc {α β γ : Type} (o : Host.Outcome α Fault Refusal) (f : α → Host.Outcome β Fault Refusal)
    (g : β → Host.Outcome γ Fault Refusal) : andThen (andThen o f) g = andThen o fun a => andThen (f a) g := by
  cases o <;> rfl

/-! ### MemRead and MemWrite -/

theorem memRead_eq_next {u : UnitId} {i : Nat} {s : State} {v : Byte} :
    memRead u i s = .next v ↔ i < s.inLenOf u ∧ Memory.read (s.space (inSpace u)) i = some v := by
  unfold memRead
  split
  · cases h : Memory.read (s.space (inSpace u)) i <;> simp_all
  · simp_all

theorem memRead_of {u : UnitId} {i : Nat} {s : State} {v : Byte} (h : i < s.inLenOf u)
    (hv : Memory.read (s.space (inSpace u)) i = some v) : memRead u i s = .next v :=
  memRead_eq_next.mpr ⟨h, hv⟩

theorem memWrite_eq_next {u : UnitId} {i : Nat} {v : Byte} {s t : State} :
    memWrite u i v s = .next t ↔
      i < s.outCapOf u ∧ t = s.setSpace (outSpace u) (Memory.write (s.space (outSpace u)) i v) := by
  unfold memWrite
  split <;> simp_all [eq_comm]

theorem memWrite_of {u : UnitId} {i : Nat} (v : Byte) {s : State} (h : i < s.outCapOf u) :
    memWrite u i v s = .next (s.setSpace (outSpace u) (Memory.write (s.space (outSpace u)) i v)) :=
  memWrite_eq_next.mpr ⟨h, rfl⟩

/-! ### ENC -/

/-- The state after `CLOSE` (R80). -/
theorem close_eq_next {s t : State} :
    close s = .next t ↔
      s.enc.slot < s.enc.outCap ∧
        t = (s.setSpace .encOut (Memory.write s.encOut s.enc.slot s.enc.cnt)).setEnc
          { s.enc with slot := s.enc.wr, wr := s.enc.wr + 1, cnt := 0x01#8 } := by
  simp only [close, andThen_eq_next, memWrite_eq_next]
  constructor
  · rintro ⟨a, ⟨h, rfl⟩, h'⟩
    exact ⟨h, by simpa using h'.symm⟩
  · rintro ⟨h, rfl⟩
    exact ⟨_, ⟨h, rfl⟩, rfl⟩

/-- The state after the copy of a raw byte (R83, R84). -/
theorem encCopy_eq_next {b : Byte} {s t : State} :
    encCopy b s = .next t ↔
      s.enc.wr < s.enc.outCap ∧
        t = (s.setSpace .encOut (Memory.write s.encOut s.enc.wr b)).setEnc
          { s.enc with wr := s.enc.wr + 1, cnt := s.enc.cnt + 1#8 } := by
  simp only [encCopy, andThen_eq_next, memWrite_eq_next]
  constructor
  · rintro ⟨a, ⟨h, rfl⟩, h'⟩
    exact ⟨h, by simpa using h'.symm⟩
  · rintro ⟨h, rfl⟩
    exact ⟨_, ⟨h, rfl⟩, rfl⟩

/-! ### DEC -/

theorem decEmit_eq_next {v : Byte} {s t : State} :
    decEmit v s = .next t ↔
      s.dec.wr < s.dec.outCap ∧
        t = (s.setSpace .decOut (Memory.write s.decOut s.dec.wr v)).setDec { s.dec with wr := s.dec.wr + 1 } := by
  simp only [decEmit, andThen_eq_next, memWrite_eq_next]
  constructor
  · rintro ⟨a, ⟨h, rfl⟩, h'⟩
    exact ⟨h, by simpa using h'.symm⟩
  · rintro ⟨h, rfl⟩
    exact ⟨_, ⟨h, rfl⟩, rfl⟩

/-- `BLOCK_END` (R101): either the implied zero is written, or nothing is. -/
theorem blockEnd_eq_next {s t : State} :
    blockEnd s = .next t ↔
      ((s.dec.code ≠ 0xFF#8 ∧ s.dec.rd ≠ s.dec.inLen) ∧ s.dec.wr < s.dec.outCap ∧
        t = (s.setSpace .decOut (Memory.write s.decOut s.dec.wr 0x00#8)).setDec
          { s.dec with wr := s.dec.wr + 1, st := .hdr }) ∨
      (¬(s.dec.code ≠ 0xFF#8 ∧ s.dec.rd ≠ s.dec.inLen) ∧ t = s.setDec { s.dec with st := .hdr }) := by
  simp only [blockEnd, andThen_eq_next]
  split
  · next h =>
    simp only [decEmit_eq_next]
    constructor
    · rintro ⟨a, ⟨h1, rfl⟩, h2⟩
      exact .inl ⟨h, h1, by simpa using h2.symm⟩
    · rintro (⟨_, h1, rfl⟩ | ⟨h1, _⟩)
      · exact ⟨_, ⟨h1, rfl⟩, rfl⟩
      · exact absurd h h1
  · next h =>
    constructor
    · rintro ⟨a, h1, h2⟩
      simp only [Host.Outcome.next.injEq] at h1
      subst h1
      exact .inr ⟨h, by simpa using h2.symm⟩
    · rintro (⟨h1, _⟩ | ⟨_, rfl⟩)
      · exact absurd h1 h
      · exact ⟨s, rfl, rfl⟩

/-- Filling an output space with free values leaves every register and every other space alone. -/
@[simp] theorem voidOut_enc (u : UnitId) (n : Nat) (s : State) : (voidOut u n s).enc = s.enc := by
  cases u <;> rfl

@[simp] theorem voidOut_dec (u : UnitId) (n : Nat) (s : State) : (voidOut u n s).dec = s.dec := by
  cases u <;> rfl

@[simp] theorem voidOut_encIn (u : UnitId) (n : Nat) (s : State) : (voidOut u n s).encIn = s.encIn := by
  cases u <;> rfl

@[simp] theorem voidOut_decIn (u : UnitId) (n : Nat) (s : State) : (voidOut u n s).decIn = s.decIn := by
  cases u <;> rfl

@[simp] theorem voidOut_turns (u : UnitId) (n : Nat) (s : State) : (voidOut u n s).turns = s.turns := by
  cases u <;> rfl

@[simp] theorem voidOut_maxLen (u : UnitId) (n : Nat) (s : State) : (voidOut u n s).maxLen = s.maxLen := by
  cases u <;> rfl

@[simp] theorem voidOut_draws (u : UnitId) (n : Nat) (s : State) : (voidOut u n s).draws = s.draws + n := rfl

@[simp] theorem voidOut_dec_encOut (n : Nat) (s : State) : (voidOut .dec n s).encOut = s.encOut := rfl

@[simp] theorem voidOut_enc_decOut (n : Nat) (s : State) : (voidOut .enc n s).decOut = s.decOut := rfl

theorem voidOut_enc_encOut (n : Nat) (s : State) :
    (voidOut .enc n s).encOut = Memory.fill s.encOut n fun i => Config.freeByte (s.draws + i) := rfl

theorem voidOut_dec_decOut (n : Nat) (s : State) :
    (voidOut .dec n s).decOut = Memory.fill s.decOut n fun i => Config.freeByte (s.draws + i) := rfl

/-! ### `raise MalformedFrame` (R124) -/

@[simp] theorem raiseMalformed_enc (c : Cause) (s : State) : (raiseMalformed c s).enc = s.enc := rfl

@[simp] theorem raiseMalformed_dec (c : Cause) (s : State) :
    (raiseMalformed c s).dec = { s.dec with outLen := 0, fail := true, phase := .done } := rfl

@[simp] theorem raiseMalformed_encIn (c : Cause) (s : State) : (raiseMalformed c s).encIn = s.encIn := rfl

@[simp] theorem raiseMalformed_encOut (c : Cause) (s : State) : (raiseMalformed c s).encOut = s.encOut := rfl

@[simp] theorem raiseMalformed_decIn (c : Cause) (s : State) : (raiseMalformed c s).decIn = s.decIn := rfl

@[simp] theorem raiseMalformed_turns (c : Cause) (s : State) : (raiseMalformed c s).turns = s.turns := rfl

@[simp] theorem raiseMalformed_maxLen (c : Cause) (s : State) : (raiseMalformed c s).maxLen = s.maxLen := rfl

theorem raiseMalformed_decOut (c : Cause) (s : State) :
    (raiseMalformed c s).decOut = Memory.fill s.decOut (s.dec.inLen - 1) fun i => Config.freeByte (s.draws + i) := rfl

/-- Every cause has the same effect (R117). -/
theorem raiseMalformed_cause (c c' : Cause) (s : State) : raiseMalformed c s = raiseMalformed c' s := rfl

/-! ### START -/

theorem startRefusal_eq_none {u : UnitId} {len cap : Nat} {s : State} :
    startRefusal u len cap s = none ↔
      lengthOk s len = true ∧ neededCap u len ≤ cap ∧ Memory.WrittenBelow (s.space (inSpace u)) len := by
  unfold startRefusal
  rw [← allWritten_iff]
  split <;> rename_i h1
  · simp_all
  · split <;> rename_i h2
    · simp only [reduceCtorEq, false_iff]
      omega
    · split <;> rename_i h3
      · simp_all
      · simp_all

/-- A START has three outcomes. -/
theorem onStart_cases (u : UnitId) (len cap : Nat) (go : State → Result) (s : State) :
    (s.phaseOf u = .busy ∧ onStart u len cap go s = .next s) ∨
    (s.phaseOf u ≠ .busy ∧ (∃ r, startRefusal u len cap s = some r ∧ onStart u len cap go s = .refused r)) ∨
    (s.phaseOf u ≠ .busy ∧ startRefusal u len cap s = none ∧ onStart u len cap go s = go s) := by
  unfold onStart
  split
  · exact .inl ⟨‹_›, rfl⟩
  · cases h : startRefusal u len cap s with
    | none => exact .inr (.inr ⟨‹_›, rfl, by simp⟩)
    | some r => exact .inr (.inl ⟨‹_›, r, rfl, by simp⟩)

/-- A START whose preconditions hold runs the operation. -/
theorem onStart_accepted {u : UnitId} {X : List Byte} {cap : Nat} {s : State} (h : Accepts u X cap s)
    (go : State → Result) : onStart u X.length cap go s = go s := by
  obtain ⟨hp, hl, hc, hm⟩ := h
  unfold onStart
  rw [if_neg hp, startRefusal_eq_none.mpr ⟨hl, hc, writtenBelow_of_hasBytes hm⟩]

end Sys2Proof.Machine
end

