-- ==== Sys2Proof/Laws/Decoder.lean ====
section
/-! SUPPORT. What each step and block code of DEC does, said once: when it answers a next state, and which. -/

namespace Sys2Proof.Machine

theorem decHdrReady_iff {n : Byte} {s : State} :
    decHdrReady n s = true ↔
      s.dec.phase = .busy ∧ s.dec.st = .hdr ∧ s.dec.rd < s.dec.inLen ∧ Memory.read s.decIn s.dec.rd = some n := by
  simp [decHdrReady, and_assoc]

theorem decDataReady_iff {s : State} :
    decDataReady s = true ↔ s.dec.phase = .busy ∧ s.dec.st = .data ∧ 1 ≤ s.dec.rem.toNat := by
  simp [decDataReady, and_assoc]

theorem decEndReady_iff {s : State} :
    decEndReady s = true ↔ s.dec.phase = .busy ∧ s.dec.st = .hdr ∧ s.dec.rd = s.dec.inLen := by
  simp [decEndReady, and_assoc]

theorem isShortCode_iff {n : Byte} : isShortCode n = true ↔ 2 ≤ n.toNat ∧ n.toNat ≤ 254 := by
  simp [isShortCode]

theorem overruns_iff {N p : Nat} {n : Byte} : overruns N p n = true ↔ N < p + n.toNat := by
  simp [overruns, nextBlock]

/-- `BLK.ILLEGAL` (R97). -/
theorem execBlkIllegal_eq_next {s t : State} :
    execBlkIllegal s = .next t ↔ decHdrReady 0x00#8 s = true ∧ t = raiseMalformed .zeroLengthByte s := by
  unfold execBlkIllegal
  split <;> rename_i h
  · simp only [Config.term] at h
    simp [h, eq_comm]
  · simp only [Config.term] at h
    simp [h]

/-- The state of DEC after a length byte and before the end of its block (R96). -/
theorem takeHeader_eq (n : Byte) (s : State) :
    takeHeader n s = s.setDec { s.dec with code := n, rem := n - 1#8, rd := s.dec.rd + 1 } := rfl

/-- `BLK.EMPTY` (R98). -/
theorem execBlkEmpty_eq_next {s t : State} :
    execBlkEmpty s = .next t ↔
      decHdrReady 0x01#8 s = true ∧
      ((s.dec.rd + 1 ≠ s.dec.inLen ∧ s.dec.wr < s.dec.outCap ∧
          t = (s.setSpace .decOut (Memory.write s.decOut s.dec.wr 0x00#8)).setDec
            { s.dec with code := 0x01#8, rem := 0x00#8, rd := s.dec.rd + 1, wr := s.dec.wr + 1, st := .hdr }) ∨
        (s.dec.rd + 1 = s.dec.inLen ∧
          t = s.setDec { s.dec with code := 0x01#8, rem := 0x00#8, rd := s.dec.rd + 1, st := .hdr })) := by
  unfold execBlkEmpty
  split <;> rename_i h
  · simp only [Config.codeMin] at h ⊢
    simp only [h, true_and, blockEnd_eq_next, takeHeader_eq, setDec_dec, setDec_decOut, setDec_setDec]
    by_cases hf : s.dec.rd + 1 = s.dec.inLen
    · simp [hf]
    · simp only [ne_eq, hf, not_false_eq_true, and_true, true_and, false_and, or_false]
      constructor
      · rintro (⟨_, h2, rfl⟩ | ⟨h1, _⟩)
        · exact ⟨h2, rfl⟩
        · exact absurd (by decide) h1
      · rintro ⟨h2, rfl⟩
        exact .inl ⟨by decide, h2, rfl⟩
  · simp only [Config.codeMin] at h
    simp [h]

/-- The header of a block with data bytes (R99, R100). -/
theorem openBlock_eq (n : Byte) (s : State) :
    openBlock n s =
      if s.dec.inLen < s.dec.rd + n.toNat then raiseMalformed .overrun s
      else s.setDec { s.dec with code := n, rem := n - 1#8, rd := s.dec.rd + 1, st := .data } := by
  unfold openBlock
  split <;> rename_i h
  · rw [if_pos (overruns_iff.mp h)]
  · rw [if_neg (fun h' => h (overruns_iff.mpr h'))]
    rfl

/-- `BLK.SHORT` (R99). -/
theorem execBlkShort_eq_next {n : Byte} {s t : State} :
    execBlkShort n s = .next t ↔
      decHdrReady n s = true ∧ (2 ≤ n.toNat ∧ n.toNat ≤ 254) ∧ t = openBlock n s := by
  unfold execBlkShort
  rw [← isShortCode_iff]
  split <;> rename_i h
  · simp only [Bool.and_eq_true] at h
    simp [h, eq_comm]
  · simp only [Bool.and_eq_true] at h
    simp only [reduceCtorEq, false_iff]
    exact fun h' => h ⟨h'.1, h'.2.1⟩

/-- `BLK.FULL` (R100). -/
theorem execBlkFull_eq_next {s t : State} :
    execBlkFull s = .next t ↔ decHdrReady 0xFF#8 s = true ∧ t = openBlock 0xFF#8 s := by
  unfold execBlkFull
  split <;> rename_i h
  · simp only [Config.codeFull] at h ⊢
    simp [h, eq_comm]
  · simp only [Config.codeFull] at h
    simp [h]

/-- DEC after the copy of a data byte and before the end of its block (R102). -/
def copied (b : Byte) (s : State) : State :=
  (s.setSpace .decOut (Memory.write s.decOut s.dec.wr b)).setDec
    { s.dec with wr := s.dec.wr + 1, rd := s.dec.rd + 1, rem := s.dec.rem - 1#8 }

/-- DEC.DATA (R102). -/
theorem execDecData_eq_next {s t : State} :
    execDecData s = .next t ↔
      (s.dec.phase = .busy ∧ s.dec.st = .data ∧ 1 ≤ s.dec.rem.toNat) ∧
      ∃ b, (s.dec.rd < s.dec.inLen ∧ Memory.read s.decIn s.dec.rd = some b) ∧
        ((b = 0x00#8 ∧ t = raiseMalformed .zeroDataByte s) ∨
          (b ≠ 0x00#8 ∧ s.dec.wr < s.dec.outCap ∧
            ((s.dec.rem - 1#8 = 0x00#8 ∧ blockEnd (copied b s) = .next t) ∨
              (s.dec.rem - 1#8 ≠ 0x00#8 ∧ t = copied b s)))) := by
  unfold execDecData
  rw [← decDataReady_iff]
  split <;> rename_i h
  · simp only [h, true_and, andThen_eq_next, memRead_eq_next, inLenOf_dec, inSpace_dec, space_decIn, Config.term]
    refine exists_congr fun b => and_congr_right fun _ => ?_
    split <;> rename_i hb
    · simp [hb, eq_comm]
    · simp only [hb, false_and, false_or, ne_eq, not_false_eq_true, true_and, andThen_eq_next, decEmit_eq_next]
      constructor
      · rintro ⟨a, ⟨h1, rfl⟩, h2⟩
        refine ⟨h1, ?_⟩
        split at h2 <;> rename_i h3
        · exact .inl ⟨by simpa using h3, h2⟩
        · exact .inr ⟨by simpa using h3, by simpa [copied] using h2.symm⟩
      · rintro ⟨h1, h2⟩
        refine ⟨_, ⟨h1, rfl⟩, ?_⟩
        rcases h2 with ⟨h2, h3⟩ | ⟨h2, rfl⟩
        · rw [if_pos (by simpa using h2)]
          exact h3
        · rw [if_neg (by simpa using h2)]
          rfl
  · exact ⟨fun h' => (by cases h'), fun h' => absurd h'.1 h⟩

/-- DEC.FINISH (R103). -/
theorem execDecFinish_eq_next {s t : State} :
    execDecFinish s = .next t ↔
      (s.dec.phase = .busy ∧ s.dec.st = .hdr ∧ s.dec.rd = s.dec.inLen) ∧
      t = s.setDec { s.dec with outLen := s.dec.wr, phase := .done } := by
  unfold execDecFinish
  rw [← decEndReady_iff]
  split <;> rename_i h
  · simp only [h, true_and, Host.Outcome.next.injEq]
    exact eq_comm
  · exact ⟨fun h' => (by cases h'), fun h' => absurd h'.1 h⟩

end Sys2Proof.Machine
end

