-- ==== Sys2Proof/Laws/Encoder.lean ====
section
/-! SUPPORT. What each step of ENC does, said once: when it answers a next state, and which. -/

namespace Sys2Proof.Machine

theorem encByteReady_iff {b : Byte} {s : State} :
    encByteReady b s = true ↔
      s.enc.phase = .busy ∧ s.enc.rd < s.enc.inLen ∧ Memory.read s.encIn s.enc.rd = some b := by
  simp [encByteReady, and_assoc]

theorem encEndReady_iff {s : State} : encEndReady s = true ↔ s.enc.phase = .busy ∧ s.enc.rd = s.enc.inLen := by
  simp [encEndReady]

theorem isDataByte_iff {b : Byte} : isDataByte b = true ↔ b ≠ 0x00#8 := by
  simp [isDataByte]

/-- ENC.ZERO (R82). -/
theorem execEncZero_eq_next {s t : State} :
    execEncZero s = .next t ↔
      (s.enc.phase = .busy ∧ s.enc.rd < s.enc.inLen ∧ Memory.read s.encIn s.enc.rd = some 0x00#8) ∧
      s.enc.slot < s.enc.outCap ∧
      t = (s.setSpace .encOut (Memory.write s.encOut s.enc.slot s.enc.cnt)).setEnc
        { s.enc with slot := s.enc.wr, wr := s.enc.wr + 1, cnt := 0x01#8, jc := false, rd := s.enc.rd + 1 } := by
  unfold execEncZero
  rw [← encByteReady_iff]
  split
  · next h =>
    simp only [andThen_eq_next, close_eq_next, Config.term] at h ⊢
    constructor
    · rintro ⟨a, ⟨h1, rfl⟩, h2⟩
      exact ⟨h, h1, by simpa [encAdvance] using h2.symm⟩
    · rintro ⟨_, h1, rfl⟩
      exact ⟨_, ⟨h1, rfl⟩, rfl⟩
  · next h =>
    simp only [reduceCtorEq, false_iff]
    exact fun h' => h h'.1

/-- ENC.DATA (R83). -/
theorem execEncData_eq_next {b : Byte} {s t : State} :
    execEncData b s = .next t ↔
      (s.enc.phase = .busy ∧ s.enc.rd < s.enc.inLen ∧ Memory.read s.encIn s.enc.rd = some b) ∧
      b ≠ 0x00#8 ∧ s.enc.cnt.toNat ≤ 253 ∧ s.enc.wr < s.enc.outCap ∧
      t = (s.setSpace .encOut (Memory.write s.encOut s.enc.wr b)).setEnc
        { s.enc with wr := s.enc.wr + 1, cnt := s.enc.cnt + 1#8, jc := false, rd := s.enc.rd + 1 } := by
  unfold execEncData
  rw [← encByteReady_iff, ← isDataByte_iff]
  split
  · next h =>
    simp only [Bool.and_eq_true, decide_eq_true_eq] at h
    simp only [andThen_eq_next, encCopy_eq_next]
    constructor
    · rintro ⟨a, ⟨h1, rfl⟩, h2⟩
      exact ⟨h.1.1, h.1.2, h.2, h1, by simpa [encAdvance] using h2.symm⟩
    · rintro ⟨_, _, _, h1, rfl⟩
      exact ⟨_, ⟨h1, rfl⟩, rfl⟩
  · next h =>
    simp only [reduceCtorEq, false_iff]
    rintro ⟨h1, h2, h3, _⟩
    simp [h1, h2, h3] at h

/-- ENC.CAP (R84). -/
theorem execEncCap_eq_next {b : Byte} {s t : State} :
    execEncCap b s = .next t ↔
      (s.enc.phase = .busy ∧ s.enc.rd < s.enc.inLen ∧ Memory.read s.encIn s.enc.rd = some b) ∧
      b ≠ 0x00#8 ∧ s.enc.cnt.toNat = 254 ∧ s.enc.wr < s.enc.outCap ∧ s.enc.slot < s.enc.outCap ∧
      t = (s.setSpace .encOut (Memory.write (Memory.write s.encOut s.enc.wr b) s.enc.slot 0xFF#8)).setEnc
        { s.enc with slot := s.enc.wr + 1, wr := s.enc.wr + 2, cnt := 0x01#8, jc := true, rd := s.enc.rd + 1 } := by
  unfold execEncCap
  rw [← encByteReady_iff, ← isDataByte_iff]
  split
  · next h =>
    simp only [Bool.and_eq_true, decide_eq_true_eq] at h
    have hc : s.enc.cnt + 1#8 = 0xFF#8 := by
      rw [show s.enc.cnt = 254#8 from BitVec.eq_of_toNat_eq (by simpa using h.2)]
      rfl
    simp only [andThen_eq_next, encCopy_eq_next, close_eq_next]
    constructor
    · rintro ⟨a, ⟨h1, rfl⟩, c, ⟨h3, rfl⟩, h2⟩
      refine ⟨h.1.1, h.1.2, h.2, h1, by simpa using h3, ?_⟩
      simp only [Host.Outcome.next.injEq] at h2
      rw [← h2]
      simp only [encAdvance, setEnc_enc, setEnc_encOut, setSpace_encOut_encOut, hc]
      rfl
    · rintro ⟨_, _, _, h1, h3, rfl⟩
      refine ⟨_, ⟨h1, rfl⟩, _, ⟨by simpa using h3, rfl⟩, ?_⟩
      simp only [encAdvance, setEnc_enc, setEnc_encOut, setSpace_encOut_encOut, hc]
      rfl
  · next h =>
    simp only [reduceCtorEq, false_iff]
    rintro ⟨h1, h2, h3, _⟩
    simp [h1, h2, h3] at h

/-- ENC.FINISH (R85): after a cap close on the last byte nothing is written. -/
theorem execEncFinish_eq_next {s t : State} :
    execEncFinish s = .next t ↔
      (s.enc.phase = .busy ∧ s.enc.rd = s.enc.inLen) ∧
      ((s.enc.jc = true ∧ t = s.setEnc { s.enc with outLen := s.enc.slot, phase := .done }) ∨
        (s.enc.jc = false ∧ s.enc.slot < s.enc.outCap ∧
          t = (s.setSpace .encOut (Memory.write s.encOut s.enc.slot s.enc.cnt)).setEnc
            { s.enc with
              slot := s.enc.wr, wr := s.enc.wr + 1, cnt := 0x01#8, outLen := s.enc.wr, phase := .done })) := by
  unfold execEncFinish
  rw [← encEndReady_iff]
  split
  · next h =>
    simp only [h, true_and]
    cases hj : s.enc.jc
    · simp only [Bool.false_eq_true, if_false, andThen_eq_next, close_eq_next, false_and, false_or, true_and]
      constructor
      · rintro ⟨a, ⟨h1, rfl⟩, h2⟩
        refine ⟨h1, ?_⟩
        simpa [hj] using h2.symm
      · rintro ⟨h1, rfl⟩
        exact ⟨_, ⟨h1, rfl⟩, by simp [hj]⟩
    · simp [eq_comm, hj]
  · next h =>
    simp only [reduceCtorEq, false_iff]
    exact fun h' => h h'.1

end Sys2Proof.Machine
end

