-- ==== Sys2Proof/Laws/PerInstr.lean ====
section
/-! SUPPORT. Per instruction: what the encoder writes for a row that a byte selects is taken, by the opcode
table's first-match rule, by that very row (30_encoding.md R76). -/

namespace Sys2Proof.Laws.RowFits

/-- The row that the table's first-match rule gives a selector, for the groups that a byte selects. -/
def rowOf : Selector → Option String
  | .command _ _ _ => none
  | .start _ _ _ => none
  | .finish _ => none
  | .dataByte => none
  | .lengthByte n => firstRow lengthByteRows Config.cntInit n
  | .rawByte cnt b => firstRow rawByteRows cnt b

/-- What the encoder writes for a well-formed instruction that a byte selects lies in its own row. -/
def Statement (i : Instr) : Prop :=
  i.wellFormed = true → ((encode i).byte.isSome = true → rowOf (encode i) = some i.mnemonic)

theorem encode (len cap : Nat) : Statement (.encode len cap) := by
  intro _ h
  simp [Sys2Proof.encode, Selector.byte] at h

theorem decode (len cap : Nat) : Statement (.decode len cap) := by
  intro _ h
  simp [Sys2Proof.encode, Selector.byte] at h

theorem blkIllegal : Statement .blkIllegal := by
  intro _ _
  decide

theorem blkEmpty : Statement .blkEmpty := by
  intro _ _
  decide

theorem blkFull : Statement .blkFull := by
  intro _ _
  decide

theorem blkShort (n : Byte) : Statement (.blkShort n) := by
  intro hw _
  revert n
  decide

theorem encZero : Statement .encZero := by
  intro _ _
  decide

theorem encData (b : Byte) : Statement (.encData b) := by
  intro hw _
  revert b
  decide

theorem encCap (b : Byte) : Statement (.encCap b) := by
  intro hw _
  revert b
  decide

theorem encStart (len cap : Nat) : Statement (.encStart len cap) := by
  intro _ h
  simp [Sys2Proof.encode, Selector.byte] at h

theorem encFinish : Statement .encFinish := by
  intro _ h
  simp [Sys2Proof.encode, Selector.byte] at h

theorem decStart (len cap : Nat) : Statement (.decStart len cap) := by
  intro _ h
  simp [Sys2Proof.encode, Selector.byte] at h

theorem decData : Statement .decData := by
  intro _ h
  simp [Sys2Proof.encode, Selector.byte] at h

theorem decFinish : Statement .decFinish := by
  intro _ h
  simp [Sys2Proof.encode, Selector.byte] at h

end Sys2Proof.Laws.RowFits
end

