-- ==== Sys2Proof/Laws/Step.lean ====
section
/-! SUPPORT. Step selection, and what a turn, a command and a step of the machine can do, said once. -/

namespace Sys2Proof.Machine

/-! ### Selection (R81, R95) -/

@[simp] theorem decoded_finish_enc : decoded (.finish .enc) = .next .encFinish := rfl

@[simp] theorem decoded_finish_dec : decoded (.finish .dec) = .next .decFinish := rfl

@[simp] theorem decoded_dataByte : decoded .dataByte = .next .decData := rfl

@[simp] theorem decoded_lengthByte (n : Byte) : decoded (.lengthByte n) = .next (decodeLengthByte n) := rfl

@[simp] theorem decoded_start_enc (len cap : Nat) : decoded (.start .enc len cap) = .next (.encStart len cap) := rfl

@[simp] theorem decoded_start_dec (len cap : Nat) : decoded (.start .dec len cap) = .next (.decStart len cap) := rfl

@[simp] theorem decoded_command_enc (len cap : Nat) : decoded (.command .enc len cap) = .next (.encode len cap) := rfl

@[simp] theorem decoded_command_dec (len cap : Nat) : decoded (.command .dec len cap) = .next (.decode len cap) := rfl

theorem decoded_rawByte_eq_next {cnt b : Byte} {i : Instr} :
    decoded (.rawByte cnt b) = .next i ↔
      (b = 0x00#8 ∧ i = .encZero) ∨ (b ≠ 0x00#8 ∧ cnt.toNat ≤ 253 ∧ i = .encData b) ∨
        (b ≠ 0x00#8 ∧ cnt.toNat = 254 ∧ i = .encCap b) := by
  unfold decoded
  simp only [decode, decodeRawByte, Config.term]
  by_cases h0 : b = 0x00#8
  · simp [h0, eq_comm]
  · by_cases h1 : cnt.toNat ≤ 253
    · have h2 : cnt.toNat ≠ 254 := by omega
      simp [h0, h1, h2, eq_comm]
    · by_cases h2 : cnt.toNat = 254
      · simp [h0, h2, eq_comm]
      · simp [h0, h1, h2]

/-- Which instruction ENC selects (R81). -/
theorem selectEnc_eq_next {s : State} {i : Instr} :
    selectEnc s = .next i ↔
      s.enc.phase = .busy ∧
      ((s.enc.rd = s.enc.inLen ∧ i = .encFinish) ∨
        (s.enc.rd < s.enc.inLen ∧ ∃ b, Memory.read s.encIn s.enc.rd = some b ∧
          ((b = 0x00#8 ∧ i = .encZero) ∨ (b ≠ 0x00#8 ∧ s.enc.cnt.toNat ≤ 253 ∧ i = .encData b) ∨
            (b ≠ 0x00#8 ∧ s.enc.cnt.toNat = 254 ∧ i = .encCap b)))) := by
  unfold selectEnc
  by_cases hb : s.enc.phase = .busy
  · by_cases hr : s.enc.rd = s.enc.inLen
    · simp only [hb, hr, if_true, decoded_finish_enc, Host.Outcome.next.injEq, true_and, Nat.lt_irrefl, false_and,
        or_false]
      exact eq_comm
    · simp only [hb, hr, if_true, if_false, andThen_eq_next, memRead_eq_next, decoded_rawByte_eq_next, inLenOf_enc,
        inSpace_enc, space_encIn, true_and, false_and, false_or, and_assoc]
      exact exists_and_left
  · simp [hb]

/-- Which instruction DEC selects (R95). -/
theorem selectDec_eq_next {s : State} {i : Instr} :
    selectDec s = .next i ↔
      s.dec.phase = .busy ∧
      ((s.dec.st = .data ∧ i = .decData) ∨ (s.dec.st = .hdr ∧ s.dec.rd = s.dec.inLen ∧ i = .decFinish) ∨
        (s.dec.st = .hdr ∧ s.dec.rd < s.dec.inLen ∧
          ∃ n, Memory.read s.decIn s.dec.rd = some n ∧ i = decodeLengthByte n)) := by
  unfold selectDec
  by_cases hb : s.dec.phase = .busy
  · cases hst : s.dec.st
    · by_cases hr : s.dec.rd = s.dec.inLen
      · simp [hb, hr, eq_comm]
      · simp only [hb, hr, if_true, if_false, andThen_eq_next, memRead_eq_next, decoded_lengthByte, inLenOf_dec,
          inSpace_dec, space_decIn, true_and, false_and, false_or, reduceCtorEq, and_assoc,
          Host.Outcome.next.injEq]
        constructor
        · rintro ⟨n, h1, h2, h3⟩
          exact ⟨h1, n, h2, h3.symm⟩
        · rintro ⟨h1, n, h2, h3⟩
          exact ⟨n, h1, h2, h3.symm⟩
    · simp [hb, eq_comm]
  · simp [hb]

/-- A selected instruction is a step of its unit, and `exec` gives it the meaning the operations use. -/
theorem exec_of_select {u : UnitId} {s : State} {i : Instr} (h : selectStep u s = .next i) (t : State) :
    exec i t = stepMeaning i t := by
  cases u
  · obtain ⟨_, ⟨_, rfl⟩ | ⟨_, b, _, ⟨_, rfl⟩ | ⟨_, _, rfl⟩ | ⟨_, _, rfl⟩⟩⟩ := selectEnc_eq_next.mp h <;> rfl
  · obtain ⟨_, ⟨_, rfl⟩ | ⟨_, _, rfl⟩ | ⟨_, _, n, _, rfl⟩⟩ := selectDec_eq_next.mp h
    · rfl
    · rfl
    · unfold decodeLengthByte
      split
      · rfl
      · split
        · rfl
        · split <;> rfl

/-- A turn of a BUSY unit is one step of it. -/
theorem unitTurn_busy {u : UnitId} {s : State} (h : s.phaseOf u = .busy) : unitTurn u s = unitStep u s := by
  unfold unitTurn unitStep
  rw [if_pos h]
  cases hs : selectStep u s with
  | next i => exact exec_of_select hs s
  | fault _ => rfl
  | refused _ => rfl

theorem unitTurn_not_busy {u : UnitId} {s : State} (h : s.phaseOf u ≠ .busy) : unitTurn u s = .next s := by
  unfold unitTurn
  rw [if_neg h]

/-- A unit runs the step it selects. -/
theorem unitStep_of_select {u : UnitId} {s t : State} {i : Instr} (h : selectStep u s = .next i)
    (ht : stepMeaning i s = .next t) : unitStep u s = .next t := by
  rw [unitStep, h, andThen_next, ht]

/-- What one step of ENC can be. -/
theorem unitStep_enc_cases {s t : State} (h : unitStep .enc s = .next t) :
    execEncZero s = .next t ∨ (∃ b, execEncData b s = .next t) ∨ (∃ b, execEncCap b s = .next t) ∨
      execEncFinish s = .next t := by
  obtain ⟨i, hi, ht⟩ := andThen_eq_next.mp h
  obtain ⟨_, ⟨_, rfl⟩ | ⟨_, b, _, ⟨_, rfl⟩ | ⟨_, _, rfl⟩ | ⟨_, _, rfl⟩⟩⟩ := selectEnc_eq_next.mp hi
  · exact .inr (.inr (.inr ht))
  · exact .inl ht
  · exact .inr (.inl ⟨b, ht⟩)
  · exact .inr (.inr (.inl ⟨b, ht⟩))

/-- What one step of DEC can be. -/
theorem unitStep_dec_cases {s t : State} (h : unitStep .dec s = .next t) :
    execBlkIllegal s = .next t ∨ execBlkEmpty s = .next t ∨ (∃ n, execBlkShort n s = .next t) ∨
      execBlkFull s = .next t ∨ execDecData s = .next t ∨ execDecFinish s = .next t := by
  obtain ⟨i, hi, ht⟩ := andThen_eq_next.mp h
  obtain ⟨_, ⟨_, rfl⟩ | ⟨_, _, rfl⟩ | ⟨_, _, n, _, rfl⟩⟩ := selectDec_eq_next.mp hi
  · exact .inr (.inr (.inr (.inr (.inl ht))))
  · exact .inr (.inr (.inr (.inr (.inr ht))))
  · unfold decodeLengthByte at ht
    split at ht
    · exact .inl ht
    · split at ht
      · exact .inr (.inl ht)
      · split at ht
        · exact .inr (.inr (.inr (.inl ht)))
        · exact .inr (.inr (.inl ⟨n, ht⟩))

/-! ### Running a unit -/

@[simp] theorem runUnit_zero (u : UnitId) (s : State) : runUnit u 0 s = .next s := rfl

theorem runUnit_succ_busy {u : UnitId} {s : State} (k : Nat) (h : s.phaseOf u = .busy) :
    runUnit u (k + 1) s = andThen (unitStep u s) (runUnit u k) := by
  rw [runUnit, if_pos h]

theorem runUnit_not_busy {u : UnitId} {s : State} (k : Nat) (h : s.phaseOf u ≠ .busy) : runUnit u k s = .next s := by
  cases k with
  | zero => rfl
  | succ k => rw [runUnit, if_neg h]

/-- A property that every step of a unit keeps holds after any run of it. -/
theorem runUnit_keeps {u : UnitId} {P : State → Prop} (hstep : ∀ s t, P s → unitStep u s = .next t → P t) (k : Nat)
    {s t : State} (hs : P s) (h : runUnit u k s = .next t) : P t := by
  induction k generalizing s with
  | zero =>
    simp only [runUnit_zero, Host.Outcome.next.injEq] at h
    exact h ▸ hs
  | succ k ih =>
    by_cases hb : s.phaseOf u = .busy
    · rw [runUnit_succ_busy k hb] at h
      obtain ⟨a, ha, h'⟩ := andThen_eq_next.mp h
      exact ih (hstep s a hs ha) h'
    · rw [runUnit_not_busy _ hb] at h
      simp only [Host.Outcome.next.injEq] at h
      exact h ▸ hs

/-- A run of two parts is the one part after the other. -/
theorem runUnit_add (u : UnitId) (j k : Nat) (s : State) :
    runUnit u (j + k) s = andThen (runUnit u j s) (runUnit u k) := by
  induction j generalizing s with
  | zero => simp
  | succ j ih =>
    by_cases hb : s.phaseOf u = .busy
    · rw [show j + 1 + k = (j + k) + 1 by omega, runUnit_succ_busy _ hb, runUnit_succ_busy _ hb, andThen_assoc]
      cases unitStep u s with
      | next a => exact ih a
      | fault _ => rfl
      | refused _ => rfl
    · rw [runUnit_not_busy _ hb, runUnit_not_busy _ hb, andThen_next, runUnit_not_busy _ hb]

/-! ### Commands -/

/-- What an ENCODE or a START on ENC can answer. -/
theorem execEncStart_next {len cap : Nat} {s t : State} (h : execEncStart len cap s = .next t) :
    (s.enc.phase = .busy ∧ t = s) ∨
      (s.enc.phase ≠ .busy ∧ startRefusal .enc len cap s = none ∧ t = encBegin len cap s) := by
  rcases onStart_cases .enc len cap (fun t => .next (encBegin len cap t)) s with
    ⟨h1, h2⟩ | ⟨h1, r, h2, h3⟩ | ⟨h1, h2, h3⟩
  · exact .inl ⟨h1, by simpa [execEncStart, h2, eq_comm] using h⟩
  · simp [execEncStart, h3] at h
  · exact .inr ⟨h1, h2, by simpa [execEncStart, h3, eq_comm] using h⟩

theorem execEncode_next {len cap : Nat} {s t : State} (h : execEncode len cap s = .next t) :
    (s.enc.phase = .busy ∧ t = s) ∨
      (s.enc.phase ≠ .busy ∧ startRefusal .enc len cap s = none ∧
        runUnit .enc (len + 1) (encBegin len cap s) = .next t) := by
  rcases onStart_cases .enc len cap (fun t => runUnit .enc (len + 1) (encBegin len cap t)) s with
    ⟨h1, h2⟩ | ⟨h1, r, h2, h3⟩ | ⟨h1, h2, h3⟩
  · exact .inl ⟨h1, by simpa [execEncode, h2, eq_comm] using h⟩
  · simp [execEncode, h3] at h
  · exact .inr ⟨h1, h2, by simpa [execEncode, h3] using h⟩

/-- What a DECODE or a START on DEC can answer. -/
theorem execDecStart_next {len cap : Nat} {s t : State} (h : execDecStart len cap s = .next t) :
    (s.dec.phase = .busy ∧ t = s) ∨
      (s.dec.phase ≠ .busy ∧ startRefusal .dec len cap s = none ∧ t = decBegin len cap s) := by
  rcases onStart_cases .dec len cap (fun t => .next (decBegin len cap t)) s with
    ⟨h1, h2⟩ | ⟨h1, r, h2, h3⟩ | ⟨h1, h2, h3⟩
  · exact .inl ⟨h1, by simpa [execDecStart, h2, eq_comm] using h⟩
  · simp [execDecStart, h3] at h
  · exact .inr ⟨h1, h2, by simpa [execDecStart, h3, eq_comm] using h⟩

theorem execDecode_next {len cap : Nat} {s t : State} (h : execDecode len cap s = .next t) :
    (s.dec.phase = .busy ∧ t = s) ∨
      (s.dec.phase ≠ .busy ∧ startRefusal .dec len cap s = none ∧
        runUnit .dec (len + 1) (decBegin len cap s) = .next t) := by
  rcases onStart_cases .dec len cap (fun t => runUnit .dec (len + 1) (decBegin len cap t)) s with
    ⟨h1, h2⟩ | ⟨h1, r, h2, h3⟩ | ⟨h1, h2, h3⟩
  · exact .inl ⟨h1, by simpa [execDecode, h2, eq_comm] using h⟩
  · simp [execDecode, h3] at h
  · exact .inr ⟨h1, h2, by simpa [execDecode, h3] using h⟩

/-! ### The step of the machine -/

/-- A move of the machine: a unit's step, a unit with nothing to do, or a host move. -/
inductive Move (s t : State) : Prop
  | idle (h : t = s)
  | unitStep (u : UnitId) (hb : s.phaseOf u = .busy) (h : Machine.unitStep u s = .next t)
  | command (i : Instr) (h : exec i s = .next t)
      (hi : ∃ len cap, i = .encode len cap ∨ i = .decode len cap ∨ i = .encStart len cap ∨ i = .decStart len cap)
  | write (sp : Space) (i : Nat) (v : Byte) (h : hostWrite sp i v s = .next t)
  | reset (h : t = resetEvent s)

theorem unitTurn_move {u : UnitId} {s t : State} (h : unitTurn u s = .next t) : Move s t := by
  by_cases hb : s.phaseOf u = .busy
  · exact .unitStep u hb (unitTurn_busy hb ▸ h)
  · rw [unitTurn_not_busy hb] at h
    exact .idle (by simpa [eq_comm] using h)

/-- Everything a step can do: the turn is consumed and one move follows. -/
theorem step_move {s t : State} (h : step s = .next t) : ∃ ts, Move (s.setTurns ts) t := by
  unfold step at h
  split at h <;> rename_i hts
  · have e : s.setTurns [] = s := by
      cases s
      simp_all [State.setTurns]
    refine ⟨[], ?_⟩
    rw [e]
    unfold freeRun at h
    split at h <;> exact unitTurn_move h
  · next x ts =>
    refine ⟨ts, ?_⟩
    cases x with
    | unit u => exact unitTurn_move h
    | host m =>
      cases m with
      | start u len cap =>
        cases u
        · exact .command (.encStart len cap) h ⟨len, cap, by simp⟩
        · exact .command (.decStart len cap) h ⟨len, cap, by simp⟩
      | operate u len cap =>
        cases u
        · exact .command (.encode len cap) h ⟨len, cap, by simp⟩
        · exact .command (.decode len cap) h ⟨len, cap, by simp⟩
      | write sp i v => exact .write sp i v h
      | reset => exact .reset (by simpa [takeTurn, hostMove, eq_comm] using h)

/-- One more step of the host's run, of any machine whose step answers `o`. -/
theorem run_succ_next (M : Host.Core) (k : Nat) (s t : M.State) (h : M.step s = .next t) :
    M.run (k + 1) s = M.run k t := by
  rw [Host.Core.run, h]

theorem run_succ_fault (M : Host.Core) (k : Nat) (s : M.State) (f : M.Fault) (h : M.step s = .fault f) :
    M.run (k + 1) s = .fault f := by
  rw [Host.Core.run, h]

theorem run_succ_refused (M : Host.Core) (k : Nat) (s : M.State) (r : M.Refusal) (h : M.step s = .refused r) :
    M.run (k + 1) s = .refused r := by
  rw [Host.Core.run, h]

/-- One more step of the host's run of this machine. -/
theorem core_run_succ (k : Nat) (s : State) :
    (Host.Core.run Sys2Proof.core (k + 1) s : Result) =
      andThen (step s) fun t => (Host.Core.run Sys2Proof.core k t : Result) := by
  cases h : step s with
  | next t => exact run_succ_next Sys2Proof.core k s t h
  | fault f => exact run_succ_fault Sys2Proof.core k s f h
  | refused r => exact run_succ_refused Sys2Proof.core k s r h

end Sys2Proof.Machine
end

