-- ==== Sys2Proof/Tests/Slice0.lean ====
section
/-! SUPPORT. Tests of single steps against the spec's worked examples, and one witness theorem for the
hypotheses of each obligation that has some.  Expected values come from 95_test_vectors.md (programs P1 to
P7, vectors V-*) and from the worked examples of rules R79 to R103. -/

namespace Sys2Proof.Tests

open Sys2Proof Sys2Proof.Machine

/-! ### Helpers -/

/-- A space that holds `X` from index `k` on. -/
def cells (k : Nat) : List Byte → Memory
  | [] => []
  | b :: bs => (k, b) :: cells (k + 1) bs

/-- Both units at reset, `ENC.IN` and `DEC.IN` loaded. -/
def loaded (X E : List Byte) : State := { State.reset with encIn := cells 0 X, decIn := cells 0 E }

/-- ENC in the middle of an operation over `X` with the source's capacity. -/
def encAt (X : List Byte) (rd slot wr : Nat) (cnt : Byte) (jc : Bool) (out : Memory) : State :=
  { State.reset with
    encIn := cells 0 X, encOut := out,
    enc := { phase := .busy, inLen := X.length, outCap := encBound X.length, outLen := 0, rd := rd, wr := wr,
             slot := slot, cnt := cnt, jc := jc } }

/-- DEC in the middle of an operation over `E` with capacity `IN_LEN`. -/
def decAt (E : List Byte) (rd wr : Nat) (code rem : Byte) (st : DecSt) (out : Memory) : State :=
  { State.reset with
    decIn := cells 0 E, decOut := out,
    dec := { phase := .busy, inLen := E.length, outCap := E.length, outLen := 0, rd := rd, wr := wr,
             code := code, rem := rem, st := st, fail := false } }

/-- ENC one byte before the cap: 253 bytes copied, the last raw byte is 0xFE (P3). -/
def encCapAt : State :=
  { State.reset with
    encIn := [(253, 0xFE#8)],
    enc := { phase := .busy, inLen := 254, outCap := 256, outLen := 0, rd := 253, wr := 254, slot := 0,
             cnt := 254#8, jc := false } }

/-- DEC at the head of a frame of length `n` that starts with 0xFF. -/
def decFullAt (n : Nat) : State :=
  { State.reset with
    decIn := [(0, 0xFF#8)],
    dec := { State.reset.dec with phase := .busy, inLen := n, outCap := n } }

/-- DEC at the last data byte of a full block that is not final. -/
def decFullEnd : State :=
  { State.reset with
    decIn := [(254, 0x55#8)],
    dec := { phase := .busy, inLen := 256, outCap := 256, outLen := 0, rd := 254, wr := 253, code := 0xFF#8,
             rem := 1#8, st := .data, fail := false } }

/-- ENC idle or busy beside DEC; both hold input. -/
def both : State :=
  { encAt [0x00] 0 0 1 1 false [] with decIn := cells 0 [0x02, 0x41], dec := (decAt [0x02, 0x41] 0 0 0 0 .hdr []).dec }

/-- `MAX_LEN` set to `m`. -/
def bounded (m : Nat) (s : State) : State := { s with maxLen := some m }

def onNext (o : Result) (p : State → Bool) : Bool :=
  match o with
  | .next t => p t
  | .fault _ => false
  | .refused _ => false

def stopsWith (o : Result) (r : Refusal) : Bool :=
  match o with
  | .next _ => false
  | .fault _ => false
  | .refused x => x == r

/-- The first `n` bytes of a space. -/
def bytes (m : Memory) (n : Nat) : List (Option Byte) := (List.range n).map (Memory.read m)

/-! ### Well-formedness: an ill-formed term for each check -/

theorem test_wellFormed_refuses_short_zero : (Instr.blkShort 0x00).wellFormed = false := by decide
theorem test_wellFormed_refuses_short_one : (Instr.blkShort 0x01).wellFormed = false := by decide
theorem test_wellFormed_refuses_short_full : (Instr.blkShort 0xFF).wellFormed = false := by decide
theorem test_wellFormed_refuses_data_zero : (Instr.encData 0x00).wellFormed = false := by decide
theorem test_wellFormed_refuses_cap_zero : (Instr.encCap 0x00).wellFormed = false := by decide
theorem test_wellFormed_accepts_short_ends :
    (Instr.blkShort 0x02).wellFormed = true ∧ (Instr.blkShort 0xFE).wellFormed = true := by decide

/-! ### Decoding: words written out from R66, R73 and R76 -/

theorem test_decode_length_bytes :
    decodeTableWord 8 0b00000000 = some .blkIllegal ∧ decodeTableWord 8 0b00000001 = some .blkEmpty ∧
      decodeTableWord 8 0b11111111 = some .blkFull ∧ decodeTableWord 8 0b00000011 = some (.blkShort 3) := by
  decide

theorem test_decode_raw_bytes :
    decode (.rawByte 1 0b00000000) = .ok .encZero ∧ decode (.rawByte 1 0b00010001) = .ok (.encData 0x11) ∧
      decode (.rawByte 254 0b11111110) = .ok (.encCap 0xFE) := by
  decide

theorem test_decode_commands :
    decode (.command .enc 4 6) = .ok (.encode 4 6) ∧ decode (.command .dec 5 5) = .ok (.decode 5 5) := by
  decide

theorem test_decode_events :
    decode (.start .enc 4 6) = .ok (.encStart 4 6) ∧ decode (.start .dec 5 5) = .ok (.decStart 5 5) ∧
      decode (.finish .enc) = .ok .encFinish ∧ decode (.finish .dec) = .ok .decFinish ∧
      decode .dataByte = .ok .decData := by
  decide

theorem test_decode_refuses_other_widths : decodeTableWord 0 0 = none ∧ decodeTableWord 16 1 = none := by decide
theorem test_decode_refuses_bad_counter : decode (.rawByte 255 1) = .error .counterOutOfRange := by decide

/-- A placed length byte is the next instruction of the machine. -/
theorem test_withFetchWord_runs_the_byte :
    onNext (step (State.reset.withFetchWord 8 0x03)) (fun t =>
      t.dec.code == 0x03 && t.dec.rem == 2 && t.dec.rd == 1 && t.dec.st == .data) = true := by
  decide

/-! ### ENC (P1, P3, P5 and the worked examples of R79 to R85) -/

theorem test_encStart :
    onNext (exec (.encStart 4 6) (loaded [0x11, 0x22, 0x00, 0x33] [])) (fun t =>
      t.enc == { phase := .busy, inLen := 4, outCap := 6, outLen := 0, rd := 0, wr := 1, slot := 0, cnt := 1,
                 jc := false }) = true := by
  decide

theorem test_encData :
    onNext (exec (.encData 0x11) (encAt [0x11, 0x22, 0x00, 0x33] 0 0 1 1 false [])) (fun t =>
      t.enc.rd == 1 && t.enc.slot == 0 && t.enc.wr == 2 && t.enc.cnt == 2 && t.encOut == [(1, 0x11)]) = true := by
  decide

theorem test_encZero :
    onNext (exec .encZero (encAt [0x11, 0x22, 0x00, 0x33] 2 0 3 3 false [(1, 0x11), (2, 0x22)])) (fun t =>
      t.enc.rd == 3 && t.enc.slot == 3 && t.enc.wr == 4 && t.enc.cnt == 1
        && t.encOut == [(0, 0x03), (1, 0x11), (2, 0x22)]) = true := by
  decide

theorem test_encCap :
    onNext (exec (.encCap 0xFE) encCapAt) (fun t =>
      t.enc.rd == 254 && t.enc.slot == 255 && t.enc.wr == 256 && t.enc.cnt == 1 && t.enc.jc
        && t.encOut == [(0, 0xFF), (254, 0xFE)]) = true := by
  decide

theorem test_encFinish_closes :
    onNext (exec .encFinish (encAt [0x11, 0x22, 0x00, 0x33] 4 3 5 2 false [])) (fun t =>
      t.enc.phase == .done && t.enc.outLen == 5 && t.enc.slot == 5 && t.enc.wr == 6 && t.encOut == [(3, 0x02)])
      = true := by
  decide

theorem test_encFinish_after_cap :
    onNext (exec .encFinish
      { encCapAt with enc := { encCapAt.enc with rd := 254, slot := 255, wr := 256, cnt := 1, jc := true } }) (fun t =>
      t.enc.phase == .done && t.enc.outLen == 255 && t.encOut == []) = true := by
  decide

/-- V-S3. -/
theorem test_encode_source_vector :
    onNext (exec (.encode 4 6) (loaded [0x11, 0x22, 0x00, 0x33] [])) (fun t =>
      t.enc.outLen == 5 && t.encOut == cells 0 [0x03, 0x11, 0x22, 0x02, 0x33]) = true := by
  decide

/-- V-E1 and the refusal of R120. -/
theorem test_encode_empty :
    onNext (exec (.encode 0 1) State.reset) (fun t => t.enc.outLen == 1 && t.encOut == [(0, 0x01)]) = true ∧
      stopsWith (exec (.encode 0 0) State.reset) .outputUndersized = true := by
  decide

/-! ### DEC (P2, P4, P5 and the worked examples of R94 to R103) -/

theorem test_decStart :
    onNext (exec (.decStart 5 5) (loaded [] [0x03, 0x11, 0x22, 0x02, 0x33])) (fun t =>
      t.dec.phase == .busy && t.dec.rd == 0 && t.dec.wr == 0 && t.dec.rem == 0 && t.dec.st == .hdr) = true := by
  decide

/-- V-D2. -/
theorem test_decStart_empty_fails :
    onNext (exec (.decStart 0 0) State.reset) (fun t =>
      t.dec.phase == .done && t.dec.fail && t.dec.outLen == 0 && t.decOut == []) = true := by
  decide

theorem test_blkShort :
    onNext (exec (.blkShort 0x03) (decAt [0x03, 0x11, 0x22, 0x02, 0x33] 0 0 0 0 .hdr [])) (fun t =>
      t.dec.rd == 1 && t.dec.wr == 0 && t.dec.code == 3 && t.dec.rem == 2 && t.dec.st == .data) = true := by
  decide

/-- P4c: the overrun stops before the header is taken; `code` and `rd` stay. -/
theorem test_blkShort_overrun :
    onNext (exec (.blkShort 0x05) (decAt [0x05, 0x11, 0x22, 0x33] 0 0 0 0 .hdr [])) (fun t =>
      t.dec.phase == .done && t.dec.fail && t.dec.outLen == 0 && t.dec.rd == 0 && t.dec.code == 0) = true := by
  decide

/-- V-D4, P5: a block that is not final writes its zero, the final one does not. -/
theorem test_blkEmpty :
    onNext (exec .blkEmpty (decAt [0x01, 0x01] 0 0 0 0 .hdr [])) (fun t =>
      t.dec.rd == 1 && t.dec.wr == 1 && t.decOut == [(0, 0x00)]) = true ∧
    onNext (exec .blkEmpty (decAt [0x01, 0x01] 1 1 1 0 .hdr [(0, 0x00)])) (fun t =>
      t.dec.rd == 2 && t.dec.wr == 1 && t.decOut == [(0, 0x00)]) = true := by
  decide

theorem test_blkFull :
    onNext (exec .blkFull (decFullAt 255)) (fun t =>
      !t.dec.fail && t.dec.code == 0xFF && t.dec.rem == 254 && t.dec.rd == 1 && t.dec.st == .data) = true ∧
    onNext (exec .blkFull (decFullAt 254)) (fun t => t.dec.fail && t.dec.phase == .done && t.dec.rd == 0) = true := by
  decide

/-- P4b: the byte past the terminator-free frame. -/
theorem test_blkIllegal :
    onNext (exec .blkIllegal (decAt [0x02, 0x41, 0x00] 2 2 2 0 .hdr [])) (fun t =>
      t.dec.phase == .done && t.dec.fail && t.dec.outLen == 0 && t.dec.rd == 2 && t.dec.wr == 2) = true := by
  decide

/-- P2, steps 2 and 3. -/
theorem test_decData :
    onNext (exec .decData (decAt [0x03, 0x11, 0x22, 0x02, 0x33] 1 0 3 2 .data [])) (fun t =>
      t.dec.rd == 2 && t.dec.wr == 1 && t.dec.rem == 1 && t.dec.st == .data && t.decOut == [(0, 0x11)]) = true ∧
    onNext (exec .decData (decAt [0x03, 0x11, 0x22, 0x02, 0x33] 2 1 3 1 .data [(0, 0x11)])) (fun t =>
      t.dec.rd == 3 && t.dec.wr == 3 && t.dec.rem == 0 && t.dec.st == .hdr
        && t.decOut == [(0, 0x11), (1, 0x22), (2, 0x00)]) = true := by
  decide

/-- A full block that is not final writes no zero (R100). -/
theorem test_decData_full_block_end :
    onNext (exec .decData decFullEnd) (fun t =>
      t.dec.rd == 255 && t.dec.wr == 254 && t.dec.rem == 0 && t.dec.st == .hdr && t.decOut == [(253, 0x55)]) = true := by
  decide

/-- P2, step 6. -/
theorem test_decFinish :
    onNext (exec .decFinish (decAt [0x03, 0x11, 0x22, 0x02, 0x33] 5 4 2 0 .hdr [])) (fun t =>
      t.dec.phase == .done && !t.dec.fail && t.dec.outLen == 4) = true := by
  decide

/-- V-D9. -/
theorem test_decode_source_vector :
    onNext (exec (.decode 5 5) (loaded [] [0x03, 0x11, 0x22, 0x02, 0x33])) (fun t =>
      !t.dec.fail && t.dec.outLen == 4 && t.decOut == cells 0 [0x11, 0x22, 0x00, 0x33]) = true := by
  decide

/-- V-D10: a zero among the data bytes. -/
theorem test_decode_zero_data_fails :
    onNext (exec (.decode 5 5) (loaded [] [0x03, 0x11, 0x00, 0x02, 0x33])) (fun t =>
      t.dec.fail && t.dec.outLen == 0 && t.dec.rd == 2 && t.dec.wr == 1) = true := by
  decide

/-- R40, R41: only the host's own moves and unwritten input are refused. -/
theorem test_refused_moves :
    stopsWith (step (both.setTurns [.host (.write .encOut 0 1)])) .hostWriteWhileBusy = true ∧
      stopsWith (exec (.decode 1 1) State.reset) .inputNotWritten = true := by
  decide

/-! ### Witnesses: the hypotheses of each obligation can be met -/

theorem accepts_enc : Accepts .enc [0x11, 0x22, 0x00, 0x33] 6 (loaded [0x11, 0x22, 0x00, 0x33] []) := by
  unfold Accepts
  decide

theorem accepts_enc_empty : Accepts .enc [] 1 State.reset := by
  unfold Accepts
  decide

theorem accepts_dec : Accepts .dec [0x02, 0x41] 2 (loaded [] [0x02, 0x41]) := by
  unfold Accepts
  decide

theorem accepts_dec_failing : Accepts .dec [0x02, 0x00] 2 (loaded [] [0x02, 0x00]) := by
  unfold Accepts
  decide

theorem accepts_dec_empty : Accepts .dec [] 0 State.reset := by
  unfold Accepts
  decide

/-- The same input in another system: other capacity, other output contents, DEC BUSY. -/
def otherSystem : State := { both with enc := State.reset.enc, encIn := cells 0 [0x11], encOut := [(0, 0x77)] }

theorem inv_both : MachineInv both := by
  unfold MachineInv MemoryInv EncInv DecInv
  refine ⟨?_, by decide, by decide⟩
  intro sp
  cases sp <;> decide

/-- A state with a failed DECODE behind it. -/
def failed : State := { State.reset with dec := { State.reset.dec with phase := .done, fail := true } }

theorem inv_failed : MachineInv failed := by
  unfold MachineInv MemoryInv EncInv DecInv
  refine ⟨?_, by decide, by decide⟩
  intro sp
  cases sp <;> decide

theorem witness_LengthByteMapIsComplete :
    (0x00#8).toNat = 0 ∧ (0x01#8).toNat = 1 ∧ 2 ≤ (0x02#8).toNat ∧ (0xFE#8).toNat ≤ 254 ∧ (0xFF#8).toNat = 255 := by
  decide

theorem witness_RawByteClassesAreComplete :
    (0x01#8 ≠ 0x00#8 ∧ (253#8).toNat ≤ 253) ∧ (254#8).toNat = 254 ∧ 254 < (255#8).toNat := by
  decide

theorem witness_DecodeInvertsEncode :
    (Instr.encode 4 6).wellFormed = true ∧ (Instr.blkShort 0x02).wellFormed = true ∧
      (Instr.blkShort 0xFE).wellFormed = true ∧ (Instr.encData 0x01).wellFormed = true ∧
      (Instr.encCap 0xFF).wellFormed = true := by
  decide

theorem witness_DecoderTakesFirstMatchingRow :
    decodeRawByte 253 0xFF = .ok (.encData 0xFF) ∧ decodeRawByte 255 0x01 = .error .counterOutOfRange := by
  decide

theorem witness_MemReadGivesTheWrittenByte :
    0 < both.inLenOf .dec ∧ Memory.read (both.space (inSpace .dec)) 0 = some 0x02#8 := by
  decide

theorem witness_MemWriteSetsOneByte : 2 < both.outCapOf .enc ∧ Memory.wf (both.space (outSpace .enc)) := by decide

theorem witness_EncStartInitialisesEncoder :
    Accepts .enc [0x11, 0x22, 0x00, 0x33] 6 (loaded [0x11, 0x22, 0x00, 0x33] []) ∧ Accepts .enc [] 1 State.reset :=
  ⟨accepts_enc, accepts_enc_empty⟩

theorem witness_EncZeroClosesTheBlock :
    both.enc.phase = .busy ∧ both.enc.rd < both.enc.inLen ∧ Memory.read both.encIn both.enc.rd = some 0x00#8 ∧
      both.enc.slot < both.enc.outCap := by
  decide

theorem witness_EncDataCopiesAndCounts :
    let s := encAt [0x11] 0 0 1 1 false []
    s.enc.phase = .busy ∧ s.enc.rd < s.enc.inLen ∧ Memory.read s.encIn s.enc.rd = some 0x11#8 ∧ 0x11#8 ≠ 0x00#8 ∧
      s.enc.cnt.toNat ≤ 253 ∧ s.enc.wr < s.enc.outCap := by
  decide

theorem witness_EncCapClosesTheFullBlock :
    encCapAt.enc.phase = .busy ∧ encCapAt.enc.rd < encCapAt.enc.inLen ∧
      Memory.read encCapAt.encIn encCapAt.enc.rd = some 0xFE#8 ∧ 0xFE#8 ≠ 0x00#8 ∧ encCapAt.enc.cnt.toNat = 254 ∧
      encCapAt.enc.wr < encCapAt.enc.outCap ∧ encCapAt.enc.slot < encCapAt.enc.wr := by
  decide

theorem witness_EncFinishReportsTheLength :
    (let s := encAt [] 0 0 1 1 true []
     s.enc.phase = .busy ∧ s.enc.rd = s.enc.inLen ∧ s.enc.jc = true) ∧
    (let s := encAt [] 0 0 1 1 false []
     s.enc.phase = .busy ∧ s.enc.rd = s.enc.inLen ∧ s.enc.jc = false ∧ s.enc.slot < s.enc.outCap) := by
  decide

theorem witness_DecStartInitialisesDecoder :
    Accepts .dec [0x02, 0x41] 2 (loaded [] [0x02, 0x41]) ∧ Accepts .dec [] 0 State.reset :=
  ⟨accepts_dec, accepts_dec_empty⟩

theorem witness_BlkIllegalRaisesMalformedFrame :
    let s := decAt [0x00] 0 0 0 0 .hdr []
    s.dec.phase = .busy ∧ s.dec.st = .hdr ∧ s.dec.rd < s.dec.inLen ∧ Memory.read s.decIn s.dec.rd = some 0x00#8 := by
  decide

theorem witness_BlkEmptyEndsItsBlock :
    (let s := decAt [0x01] 0 0 0 0 .hdr []
     s.dec.phase = .busy ∧ s.dec.st = .hdr ∧ s.dec.rd < s.dec.inLen ∧ Memory.read s.decIn s.dec.rd = some 0x01#8 ∧
       s.dec.rd + 1 = s.dec.inLen) ∧
    (let s := decAt [0x01, 0x01] 0 0 0 0 .hdr []
     s.dec.phase = .busy ∧ s.dec.st = .hdr ∧ s.dec.rd < s.dec.inLen ∧ Memory.read s.decIn s.dec.rd = some 0x01#8 ∧
       s.dec.rd + 1 ≠ s.dec.inLen ∧ s.dec.wr < s.dec.outCap) := by
  decide

/-- Both sides of the overrun test at its boundary, at both ends of the range of `n`. -/
theorem witness_BlkShortOpensOrOverruns :
    (let s := decAt [0x02, 0x41] 0 0 0 0 .hdr []
     s.dec.phase = .busy ∧ s.dec.st = .hdr ∧ s.dec.rd < s.dec.inLen ∧ Memory.read s.decIn s.dec.rd = some 0x02#8 ∧
       2 ≤ (0x02#8).toNat ∧ (0x02#8).toNat ≤ 254 ∧ s.dec.rd + (0x02#8).toNat ≤ s.dec.inLen) ∧
    (let s := decAt [0xFE] 0 0 0 0 .hdr []
     s.dec.phase = .busy ∧ s.dec.st = .hdr ∧ s.dec.rd < s.dec.inLen ∧ Memory.read s.decIn s.dec.rd = some 0xFE#8 ∧
       2 ≤ (0xFE#8).toNat ∧ (0xFE#8).toNat ≤ 254 ∧ s.dec.inLen < s.dec.rd + (0xFE#8).toNat) := by
  decide

theorem witness_BlkFullOpensOrOverruns :
    (let s := decFullAt 255
     s.dec.phase = .busy ∧ s.dec.st = .hdr ∧ s.dec.rd < s.dec.inLen ∧ Memory.read s.decIn s.dec.rd = some 0xFF#8 ∧
       s.dec.rd + 255 ≤ s.dec.inLen) ∧
    (let s := decFullAt 254
     s.dec.phase = .busy ∧ s.dec.st = .hdr ∧ s.dec.rd < s.dec.inLen ∧ Memory.read s.decIn s.dec.rd = some 0xFF#8 ∧
       s.dec.inLen < s.dec.rd + 255) := by
  decide

/-- One state for each clause: a zero data byte, more data to come, the end of a full block, the end of a
final block, the end of a short block that is not final. -/
theorem witness_DecDataCopiesOrRaises :
    (let s := decAt [0x02, 0x00] 1 0 2 1 .data []
     s.dec.phase = .busy ∧ s.dec.st = .data ∧ 1 ≤ s.dec.rem.toNat ∧ s.dec.rd < s.dec.inLen ∧
       Memory.read s.decIn s.dec.rd = some 0x00#8) ∧
    (let s := decAt [0x03, 0x11, 0x22] 1 0 3 2 .data []
     s.dec.phase = .busy ∧ s.dec.st = .data ∧ s.dec.rd < s.dec.inLen ∧
       Memory.read s.decIn s.dec.rd = some 0x11#8 ∧ 2 ≤ s.dec.rem.toNat ∧ s.dec.wr < s.dec.outCap) ∧
    (decFullEnd.dec.phase = .busy ∧ decFullEnd.dec.st = .data ∧ decFullEnd.dec.rem.toNat = 1 ∧
       decFullEnd.dec.rd < decFullEnd.dec.inLen ∧ Memory.read decFullEnd.decIn decFullEnd.dec.rd = some 0x55#8 ∧
       decFullEnd.dec.code = 0xFF#8 ∧ decFullEnd.dec.wr < decFullEnd.dec.outCap) ∧
    (let s := decAt [0x02, 0x41] 1 0 2 1 .data []
     s.dec.phase = .busy ∧ s.dec.st = .data ∧ s.dec.rem.toNat = 1 ∧ s.dec.rd < s.dec.inLen ∧
       Memory.read s.decIn s.dec.rd = some 0x41#8 ∧ s.dec.rd + 1 = s.dec.inLen ∧ s.dec.wr < s.dec.outCap) ∧
    (let s := decAt [0x02, 0x41, 0x01] 1 0 2 1 .data []
     s.dec.phase = .busy ∧ s.dec.st = .data ∧ s.dec.rem.toNat = 1 ∧ s.dec.rd < s.dec.inLen ∧
       Memory.read s.decIn s.dec.rd = some 0x41#8 ∧ s.dec.code ≠ 0xFF#8 ∧ s.dec.rd + 1 ≠ s.dec.inLen ∧
       s.dec.wr + 1 < s.dec.outCap) := by
  decide

theorem witness_DecFinishReportsTheLength :
    let s := decAt [0x01] 1 0 1 0 .hdr []
    s.dec.phase = .busy ∧ s.dec.st = .hdr ∧ s.dec.rd = s.dec.inLen := by
  decide

theorem witness_LengthByteRowsMatchHeaderStep :
    decHdrReady 0x00 (decAt [0x00] 0 0 0 0 .hdr []) = true ∧ decHdrReady 0x01 (decAt [0x01] 0 0 0 0 .hdr []) = true ∧
      decHdrReady 0xFE (decAt [0xFE] 0 0 0 0 .hdr []) = true ∧ decHdrReady 0xFF (decFullAt 255) = true := by
  decide

theorem witness_OverrunClauseForOneIsDead : (4 : Nat) < 5 := by decide

theorem witness_MalformedFrameEntryVoidsThePrefix : 0 < (decAt [0x02, 0x00] 1 0 2 1 .data []).dec.inLen - 1 := by
  decide

theorem witness_StartOnBusyUnitHasNoEffect : both.enc.phase = .busy ∧ both.dec.phase = .busy := by decide

theorem witness_UndersizedStartIsRefused :
    let s := bounded 254 State.reset
    s.enc.phase ≠ .busy ∧ s.dec.phase ≠ .busy ∧ lengthOk s 255 = false ∧ lengthOk s 254 = true ∧
      255 < encBound 254 ∧ 253 < 254 := by
  decide

theorem witness_StartOverUnwrittenInputIsRefused :
    let s := loaded [0x11] [0x01]
    1 < 2 ∧ lengthOk s 2 = true ∧ s.enc.phase ≠ .busy ∧ encBound 2 ≤ 4 ∧ Memory.read s.encIn 1 = none ∧
      s.dec.phase ≠ .busy ∧ Memory.read s.decIn 1 = none := by
  decide

theorem witness_EncTurnRunsTheSelectedStep :
    (let s := (encAt [] 0 0 1 1 false []).setTurns [.unit .enc]
     s.turns = .unit .enc :: [] ∧ s.enc.phase = .busy ∧ s.enc.rd = s.enc.inLen) ∧
    (let s := both.setTurns [.unit .enc]
     s.turns = .unit .enc :: [] ∧ s.enc.phase = .busy ∧ s.enc.rd < s.enc.inLen ∧
       Memory.read s.encIn s.enc.rd = some 0x00#8) ∧
    (let s := (encAt [0x11] 0 0 1 253 false []).setTurns [.unit .enc]
     s.turns = .unit .enc :: [] ∧ s.enc.rd < s.enc.inLen ∧ Memory.read s.encIn s.enc.rd = some 0x11#8 ∧
       s.enc.cnt.toNat ≤ 253) ∧
    (let s := encCapAt.setTurns [.unit .enc]
     s.turns = .unit .enc :: [] ∧ s.enc.rd < s.enc.inLen ∧ Memory.read s.encIn s.enc.rd = some 0xFE#8 ∧
       s.enc.cnt.toNat = 254) := by
  decide

theorem witness_DecTurnRunsTheSelectedStep :
    (let s := (decAt [0x02, 0x41] 1 0 2 1 .data []).setTurns [.unit .dec]
     s.turns = .unit .dec :: [] ∧ s.dec.phase = .busy ∧ s.dec.st = .data) ∧
    (let s := (decAt [0x01] 1 0 1 0 .hdr []).setTurns [.unit .dec]
     s.turns = .unit .dec :: [] ∧ s.dec.phase = .busy ∧ s.dec.st = .hdr ∧ s.dec.rd = s.dec.inLen) ∧
    (let s := both.setTurns [.unit .dec]
     s.turns = .unit .dec :: [] ∧ s.dec.phase = .busy ∧ s.dec.st = .hdr ∧ s.dec.rd < s.dec.inLen ∧
       Memory.read s.decIn s.dec.rd = some 0x02#8) := by
  decide

theorem witness_HostCommandRunsItsInstruction :
    (both.setTurns [.host (.start .enc 4 6)]).turns = [.host (.start .enc 4 6)] ∧
      (both.setTurns [.host (.start .dec 5 5)]).turns = [.host (.start .dec 5 5)] ∧
      (both.setTurns [.host (.operate .enc 4 6)]).turns = [.host (.operate .enc 4 6)] ∧
      (both.setTurns [.host (.operate .dec 5 5)]).turns = [.host (.operate .dec 5 5)] := by
  decide

theorem witness_UnitsRunOnWithoutTurns :
    (both.turns = [] ∧ both.enc.phase = .busy) ∧
      (otherSystem.turns = [] ∧ otherSystem.enc.phase ≠ .busy ∧ otherSystem.dec.phase = .busy) ∧
      (State.reset.turns = [] ∧ State.reset.enc.phase ≠ .busy ∧ State.reset.dec.phase ≠ .busy) := by
  decide

theorem witness_NoStepOfAUnitThatIsNotBusy :
    State.reset.enc.phase ≠ .busy ∧ State.reset.dec.phase ≠ .busy ∧
      (State.reset.setTurns [.unit .dec]).turns = [.unit .dec] ∧
      (State.reset.setTurns [.unit .dec]).phaseOf .dec ≠ .busy := by
  decide

theorem witness_ResetEventClearsBothUnits :
    (both.setTurns [.host .reset]).turns = [.host .reset] ∧ (both.setTurns [.host .reset]).enc.phase = .busy ∧
      (failed.setTurns [.host .reset]).enc.phase ≠ .busy ∧ (failed.setTurns [.host .reset]).dec.phase ≠ .busy := by
  decide

theorem witness_HostWriteNeedsAnIdleUnit :
    ((both.setTurns [.host (.write .encIn 0 1)]).turns = [.host (.write .encIn 0 1)] ∧
      (both.setTurns [.host (.write .encIn 0 1)]).phaseOf Space.encIn.owner = .busy) ∧
    (State.reset.setTurns [.host (.write .decIn 0 1)]).turns = [.host (.write .decIn 0 1)] ∧
      (State.reset.setTurns [.host (.write .decIn 0 1)]).phaseOf Space.decIn.owner ≠ .busy := by
  decide

theorem witness_StatusBitsFollowThePhase : MachineInv failed ∧ (decStatus failed).fail = true :=
  ⟨inv_failed, by decide⟩

theorem witness_InstructionsKeepToTheirUnit :
    unitOf .encZero = .enc ∧ unitOf (.blkShort 2) = .dec ∧
      onNext (exec .encZero both) (fun t => t.enc.rd == 1) = true ∧
      onNext (exec (.blkShort 2) both) (fun t => t.dec.rd == 1) = true := by
  decide

theorem witness_StepKeepsMachineInvariant :
    MachineInv both ∧ onNext (step both) (fun t => t.enc.phase == .busy && t.enc.rd == 1) = true :=
  ⟨inv_both, by decide⟩

theorem witness_InvariantRulesOutUnitStops :
    MachineInv both ∧ onNext (step both) (fun t => t.enc.rd == 1) = true := ⟨inv_both, by decide⟩

theorem witness_StepKeepsEncodedContent :
    EncInv (encAt [0x11, 0x00] 1 0 2 2 false [(1, 0x11)]) ∧ EncContent (encAt [0x11, 0x00] 1 0 2 2 false [(1, 0x11)]) ∧
      onNext (step (encAt [0x11, 0x00] 1 0 2 2 false [(1, 0x11)])) (fun t =>
        t.enc.phase == .busy && t.enc.slot == 2) = true := by
  refine ⟨by unfold EncInv; decide, fun _ => ⟨fun i h => absurd h (Nat.not_lt_zero i), fun k h1 h2 => ?_⟩, by decide⟩
  have h3 : k < 2 := h2
  obtain rfl : k = 1 := by omega
  exact ⟨0x11#8, by decide⟩

theorem witness_DecStepsWriteBelowInputLength :
    DecInv (decAt [0x02, 0x41] 1 0 2 1 .data []) ∧
      (match selectDec (decAt [0x02, 0x41] 1 0 2 1 .data []) with
        | .next i => i == .decData
        | .fault _ => false
        | .refused _ => false) = true ∧
      onNext (exec .decData (decAt [0x02, 0x41] 1 0 2 1 .data [])) (fun t => t.dec.wr == 1) = true := by
  refine ⟨by unfold DecInv; decide, by decide, by decide⟩

theorem witness_EncodeProducesTheCanonicalFrame :
    Accepts .enc [0x11, 0x22, 0x00, 0x33] 6 (loaded [0x11, 0x22, 0x00, 0x33] []) := accepts_enc

theorem witness_DecodeProducesTheRawBytesOrFails :
    (Accepts .dec [0x02, 0x41] 2 (loaded [] [0x02, 0x41]) ∧ dec [0x02, 0x41] = some [0x41]) ∧
      (Accepts .dec [0x02, 0x00] 2 (loaded [] [0x02, 0x00]) ∧ dec [0x02, 0x00] = none) ∧
      (Accepts .dec [] 0 State.reset ∧ dec [] = none) :=
  ⟨⟨accepts_dec, by decide⟩, ⟨accepts_dec_failing, by decide⟩, accepts_dec_empty, by decide⟩

theorem witness_EncodeTakesOneStepPerByte :
    Accepts .enc [0x11, 0x22, 0x00, 0x33] 6 (loaded [0x11, 0x22, 0x00, 0x33] []) ∧
      4 ≤ [0x11#8, 0x22#8, 0x00#8, 0x33#8].length := ⟨accepts_enc, by decide⟩

theorem witness_SteppedEncodeEqualsAtomicEncode :
    Accepts .enc [0x11] 3 ((loaded [0x11] []).setTurns [.host (.start .enc 1 3)]) ∧
      ((loaded [0x11] []).setTurns [.host (.start .enc 1 3)]).turns = [.host (.start .enc [0x11#8].length 3)] := by
  unfold Accepts
  decide

theorem witness_SteppedDecodeEqualsAtomicDecode :
    Accepts .dec [0x02, 0x41] 2 ((loaded [] [0x02, 0x41]).setTurns [.host (.start .dec 2 2)]) ∧
      ((loaded [] [0x02, 0x41]).setTurns [.host (.start .dec 2 2)]).enc.phase ≠ .busy ∧
      ((loaded [] [0x02, 0x41]).setTurns [.host (.start .dec 2 2)]).turns
        = [.host (.start .dec [0x02#8, 0x41#8].length 2)] := by
  unfold Accepts
  decide

theorem witness_BusyUnitFinishesInBoundedSteps : MachineInv both ∧ both.enc.phase = .busy ∧ both.dec.phase = .busy :=
  ⟨inv_both, by decide, by decide⟩

theorem witness_UnitMovesCommute :
    onNext (unitTurn .enc both) (fun t => t.enc.rd == 1) = true ∧
      onNext (unitTurn .dec both) (fun t => t.dec.rd == 1) = true := by
  decide

theorem witness_ResultDependsOnlyOnTheInput :
    (Accepts .enc [0x11] 3 (loaded [0x11] []) ∧ Accepts .enc [0x11] 9 otherSystem) ∧
      (Accepts .dec [0x02, 0x41] 2 (loaded [] [0x02, 0x41]) ∧ Accepts .dec [0x02, 0x41] 7 (loaded [0x00] [0x02, 0x41])) := by
  unfold Accepts
  decide

theorem witness_DecodedLengthIsExact : dec [0x02, 0x41, 0x01] = some [0x41, 0x00] := by decide

/-- A canonical frame, and the frame of R74 that ENC never produces. -/
theorem witness_NonCanonicalFramesEndInAnEmptyBlock :
    (dec [0x02, 0x41] = some [0x41] ∧ enc [0x41] = [0x02, 0x41]) ∧
      (let E := 0xFF#8 :: List.replicate 254 0xAA#8
       dec (E ++ [0x01#8]) = some (List.replicate 254 0xAA#8) ∧ dec E = some (List.replicate 254 0xAA#8) ∧
         frameCodes E = some [0xFF#8]) := by
  decide +kernel

end Sys2Proof.Tests
end

section
/-! The output bound of ENC (00_scope.md R10). -/

namespace Sys2Proof.Machine

/-- The defining property of the ceiling of R10: the naturals not below it are those whose product with `k`
covers `l`. -/
theorem ceilDiv_le_iff {k : Nat} (hk : 0 < k) (l m : Nat) : ceilDiv l k ≤ m ↔ l ≤ k * m := by
  unfold ceilDiv
  rw [Nat.div_le_iff_le_mul_add_pred hk]
  omega

/-- The ceiling itself covers `l`. -/
theorem le_mul_ceilDiv {k : Nat} (hk : 0 < k) (l : Nat) : l ≤ k * ceilDiv l k :=
  (ceilDiv_le_iff hk l _).mp le_rfl

/-- Settles O3: the formula is the definition of `encBound`, and both halves of "least" are the two directions
of `ceilDiv_le_iff` at 254. -/
theorem encBoundAddsLeastCeiling : Obligations.EncBoundAddsLeastCeiling := by
  unfold Obligations.EncBoundAddsLeastCeiling
  have h254 : 0 < 254 := by decide
  exact fun l => ⟨rfl, le_mul_ceilDiv h254 l, fun k => (ceilDiv_le_iff h254 l k).mpr⟩

end Sys2Proof.Machine
end

section
/-! Reset, the status bits and the host's commands (10_state.md R33, R34, R38). -/

namespace Sys2Proof.Machine

/-! ### Reset -/

/-- Settles O1: the reset state is a literal, and the status bits compute from its phases. -/
theorem resetStateHasTableValues : Obligations.ResetStateHasTableValues := by
  unfold Obligations.ResetStateHasTableValues
  exact ⟨rfl, rfl, rfl, rfl, rfl, rfl⟩

theorem memoryInv_reset : MemoryInv State.reset := by
  intro sp
  cases sp <;> exact wf_nil

/-- Outside an operation the invariant of ENC asks for nothing. -/
theorem encInv_of_not_busy {s : State} (h : s.enc.phase ≠ .busy) : EncInv s := fun hb => absurd hb h

/-- Outside an operation the invariant of DEC asks only that `FAIL` goes with `DONE` and `OUT_LEN` 0. -/
theorem decInv_of_not_busy {s : State} (h : s.dec.phase ≠ .busy)
    (hfail : s.dec.fail = true → s.dec.phase = .done ∧ s.dec.outLen = 0) : DecInv s :=
  ⟨hfail, fun hb => absurd hb h⟩

/-- Settles O2: the spaces are empty and no unit is in an operation or has failed. -/
theorem resetStateMeetsMachineInvariant : Obligations.ResetStateMeetsMachineInvariant := by
  unfold Obligations.ResetStateMeetsMachineInvariant
  have henc : EncInv State.reset := encInv_of_not_busy (by decide)
  have hdec : DecInv State.reset := decInv_of_not_busy (by decide) (by decide)
  exact ⟨memoryInv_reset, henc, hdec⟩

/-! ### The status bits -/

theorem encStatus_busy_iff (s : State) : (encStatus s).busy = true ↔ s.enc.phase = .busy := by
  simp [encStatus]

theorem encStatus_done_iff (s : State) : (encStatus s).done = true ↔ s.enc.phase = .done := by
  simp [encStatus]

theorem decStatus_busy_iff (s : State) : (decStatus s).busy = true ↔ s.dec.phase = .busy := by
  simp [decStatus]

theorem decStatus_done_iff (s : State) : (decStatus s).done = true ↔ s.dec.phase = .done := by
  simp [decStatus]

/-- A phase is `IDLE` exactly when it is neither of the two that a status bit tests for. -/
theorem phase_idle_iff (p : Phase) : ((p == .busy) = false ∧ (p == .done) = false) ↔ p = .idle := by
  cases p <;> decide

theorem phase_not_busy_and_done (p : Phase) : ¬((p == .busy) = true ∧ (p == .done) = true) := by
  cases p <;> decide

/-- Settles O36: each bit is the test for its phase, so the rest are facts about a phase; `FAIL` with `DONE`
is the first clause of DEC's invariant. -/
theorem statusBitsFollowThePhase : Obligations.StatusBitsFollowThePhase := by
  unfold Obligations.StatusBitsFollowThePhase
  intro s
  have hfail : MachineInv s → (decStatus s).fail = true → (decStatus s).done = true := by
    rintro ⟨_, _, hfail, _⟩ hf
    exact (decStatus_done_iff s).mpr (hfail hf).1
  exact ⟨encStatus_busy_iff s, encStatus_done_iff s, decStatus_busy_iff s, decStatus_done_iff s,
    phase_not_busy_and_done _, phase_not_busy_and_done _, phase_idle_iff _, phase_idle_iff _, rfl, hfail⟩

/-! ### Host commands -/

/-- The oldest turn is consumed and taken. -/
theorem step_of_turns_cons {s : State} {x : Turn} {ts : List Turn} (h : s.turns = x :: ts) :
    step s = takeTurn x (s.setTurns ts) := by
  rw [step, h]

theorem takeTurn_start (u : UnitId) (len cap : Nat) (s : State) :
    takeTurn (.host (.start u len cap)) s = andThen (decoded (.start u len cap)) fun i => exec i s := rfl

theorem takeTurn_operate (u : UnitId) (len cap : Nat) (s : State) :
    takeTurn (.host (.operate u len cap)) s = andThen (decoded (.command u len cap)) fun i => exec i s := rfl

/-- Settles O31: the turn in front is taken, and the decoder gives each of the four selectors its row. -/
theorem hostCommandRunsItsInstruction : Obligations.HostCommandRunsItsInstruction := by
  unfold Obligations.HostCommandRunsItsInstruction
  intro s ts len cap
  refine ⟨fun h => ?_, fun h => ?_, fun h => ?_, fun h => ?_⟩
  · rw [step_of_turns_cons h, takeTurn_start, decoded_start_enc, andThen_next]
  · rw [step_of_turns_cons h, takeTurn_start, decoded_start_dec, andThen_next]
  · rw [step_of_turns_cons h, takeTurn_operate, decoded_command_enc, andThen_next]
  · rw [step_of_turns_cons h, takeTurn_operate, decoded_command_dec, andThen_next]

end Sys2Proof.Machine
end

section
/-! What an instruction of one unit leaves unchanged (10_state.md R14, 20_memory.md R40). -/

namespace Sys2Proof.Machine

/-! ### The frames compose, and every update of a unit's own registers and output keeps its frame -/

theorem EncFrame.refl (s : State) : EncFrame s s := ⟨rfl, rfl, rfl, rfl, rfl, rfl, rfl⟩

theorem EncFrame.trans {a b c : State} (hab : EncFrame a b) (hbc : EncFrame b c) : EncFrame a c := by
  obtain ⟨h1, h2, h3, h4, h5, h6, h7⟩ := hab
  obtain ⟨k1, k2, k3, k4, k5, k6, k7⟩ := hbc
  exact ⟨k1.trans h1, k2.trans h2, k3.trans h3, k4.trans h4, k5.trans h5, k6.trans h6, k7.trans h7⟩

theorem encFrame_setEnc (s : State) (e : EncRegs) : EncFrame s (s.setEnc e) :=
  ⟨rfl, rfl, rfl, rfl, rfl, rfl, rfl⟩

theorem encFrame_write (s : State) (m : Memory) (e : EncRegs) : EncFrame s ((s.setSpace .encOut m).setEnc e) :=
  ⟨rfl, rfl, rfl, rfl, rfl, rfl, rfl⟩

theorem DecFrame.refl (s : State) : DecFrame s s := ⟨rfl, rfl, rfl, rfl, rfl, rfl⟩

theorem DecFrame.trans {a b c : State} (hab : DecFrame a b) (hbc : DecFrame b c) : DecFrame a c := by
  obtain ⟨h1, h2, h3, h4, h5, h6⟩ := hab
  obtain ⟨k1, k2, k3, k4, k5, k6⟩ := hbc
  exact ⟨k1.trans h1, k2.trans h2, k3.trans h3, k4.trans h4, k5.trans h5, k6.trans h6⟩

theorem decFrame_setDec (s : State) (d : DecRegs) : DecFrame s (s.setDec d) := ⟨rfl, rfl, rfl, rfl, rfl, rfl⟩

theorem decFrame_write (s : State) (m : Memory) (d : DecRegs) : DecFrame s ((s.setSpace .decOut m).setDec d) :=
  ⟨rfl, rfl, rfl, rfl, rfl, rfl⟩

theorem decFrame_raiseMalformed (c : Cause) (s : State) : DecFrame s (raiseMalformed c s) :=
  ⟨rfl, rfl, rfl, rfl, rfl, rfl⟩

/-! ### Steps -/

theorem encFrame_encBegin (len cap : Nat) (s : State) : EncFrame s (encBegin len cap s) := encFrame_setEnc s _

theorem encFrame_execEncZero {s t : State} (h : execEncZero s = .next t) : EncFrame s t := by
  obtain ⟨_, _, rfl⟩ := execEncZero_eq_next.mp h
  exact encFrame_write s _ _

theorem encFrame_execEncData {b : Byte} {s t : State} (h : execEncData b s = .next t) : EncFrame s t := by
  obtain ⟨_, _, _, _, rfl⟩ := execEncData_eq_next.mp h
  exact encFrame_write s _ _

theorem encFrame_execEncCap {b : Byte} {s t : State} (h : execEncCap b s = .next t) : EncFrame s t := by
  obtain ⟨_, _, _, _, _, rfl⟩ := execEncCap_eq_next.mp h
  exact encFrame_write s _ _

theorem encFrame_execEncFinish {s t : State} (h : execEncFinish s = .next t) : EncFrame s t := by
  obtain ⟨_, ⟨_, rfl⟩ | ⟨_, _, rfl⟩⟩ := execEncFinish_eq_next.mp h
  · exact encFrame_setEnc s _
  · exact encFrame_write s _ _

theorem decFrame_decBegin (len cap : Nat) (s : State) : DecFrame s (decBegin len cap s) := by
  unfold decBegin
  split
  · exact (decFrame_setDec s _).trans (decFrame_raiseMalformed _ _)
  · exact decFrame_setDec s _

theorem decFrame_openBlock (n : Byte) (s : State) : DecFrame s (openBlock n s) := by
  rw [openBlock_eq]
  split
  · exact decFrame_raiseMalformed _ s
  · exact decFrame_setDec s _

theorem decFrame_blockEnd {s t : State} (h : blockEnd s = .next t) : DecFrame s t := by
  obtain ⟨_, _, rfl⟩ | ⟨_, rfl⟩ := blockEnd_eq_next.mp h
  · exact decFrame_write s _ _
  · exact decFrame_setDec s _

theorem decFrame_execBlkIllegal {s t : State} (h : execBlkIllegal s = .next t) : DecFrame s t := by
  obtain ⟨_, rfl⟩ := execBlkIllegal_eq_next.mp h
  exact decFrame_raiseMalformed _ s

theorem decFrame_execBlkEmpty {s t : State} (h : execBlkEmpty s = .next t) : DecFrame s t := by
  obtain ⟨_, ⟨_, _, rfl⟩ | ⟨_, rfl⟩⟩ := execBlkEmpty_eq_next.mp h
  · exact decFrame_write s _ _
  · exact decFrame_setDec s _

theorem decFrame_execBlkShort {n : Byte} {s t : State} (h : execBlkShort n s = .next t) : DecFrame s t := by
  obtain ⟨_, _, rfl⟩ := execBlkShort_eq_next.mp h
  exact decFrame_openBlock n s

theorem decFrame_execBlkFull {s t : State} (h : execBlkFull s = .next t) : DecFrame s t := by
  obtain ⟨_, rfl⟩ := execBlkFull_eq_next.mp h
  exact decFrame_openBlock _ s

theorem decFrame_execDecData {s t : State} (h : execDecData s = .next t) : DecFrame s t := by
  obtain ⟨_, b, _, ⟨_, rfl⟩ | ⟨_, _, ⟨_, hend⟩ | ⟨_, rfl⟩⟩⟩ := execDecData_eq_next.mp h
  · exact decFrame_raiseMalformed _ s
  · exact (decFrame_write s _ _ : DecFrame s (copied b s)).trans (decFrame_blockEnd hend)
  · exact decFrame_write s _ _

theorem decFrame_execDecFinish {s t : State} (h : execDecFinish s = .next t) : DecFrame s t := by
  obtain ⟨_, rfl⟩ := execDecFinish_eq_next.mp h
  exact decFrame_setDec s _

theorem encFrame_unitStep {s t : State} (h : unitStep .enc s = .next t) : EncFrame s t := by
  obtain h | ⟨b, h⟩ | ⟨b, h⟩ | h := unitStep_enc_cases h
  · exact encFrame_execEncZero h
  · exact encFrame_execEncData h
  · exact encFrame_execEncCap h
  · exact encFrame_execEncFinish h

theorem decFrame_unitStep {s t : State} (h : unitStep .dec s = .next t) : DecFrame s t := by
  obtain h | h | ⟨n, h⟩ | h | h | h := unitStep_dec_cases h
  · exact decFrame_execBlkIllegal h
  · exact decFrame_execBlkEmpty h
  · exact decFrame_execBlkShort h
  · exact decFrame_execBlkFull h
  · exact decFrame_execDecData h
  · exact decFrame_execDecFinish h

/-! ### Whole operations -/

theorem encFrame_runUnit {k : Nat} {s t : State} (h : runUnit .enc k s = .next t) : EncFrame s t :=
  runUnit_keeps (P := EncFrame s) (fun _ _ hs hstep => hs.trans (encFrame_unitStep hstep)) k (EncFrame.refl s) h

theorem decFrame_runUnit {k : Nat} {s t : State} (h : runUnit .dec k s = .next t) : DecFrame s t :=
  runUnit_keeps (P := DecFrame s) (fun _ _ hs hstep => hs.trans (decFrame_unitStep hstep)) k (DecFrame.refl s) h

theorem encFrame_execEncStart {len cap : Nat} {s t : State} (h : execEncStart len cap s = .next t) :
    EncFrame s t := by
  obtain ⟨_, rfl⟩ | ⟨_, _, rfl⟩ := execEncStart_next h
  · exact EncFrame.refl _
  · exact encFrame_encBegin len cap s

theorem decFrame_execDecStart {len cap : Nat} {s t : State} (h : execDecStart len cap s = .next t) :
    DecFrame s t := by
  obtain ⟨_, rfl⟩ | ⟨_, _, rfl⟩ := execDecStart_next h
  · exact DecFrame.refl _
  · exact decFrame_decBegin len cap s

theorem encFrame_execEncode {len cap : Nat} {s t : State} (h : execEncode len cap s = .next t) : EncFrame s t := by
  obtain ⟨_, rfl⟩ | ⟨_, _, hrun⟩ := execEncode_next h
  · exact EncFrame.refl _
  · exact (encFrame_encBegin len cap s).trans (encFrame_runUnit hrun)

theorem decFrame_execDecode {len cap : Nat} {s t : State} (h : execDecode len cap s = .next t) : DecFrame s t := by
  obtain ⟨_, rfl⟩ | ⟨_, _, hrun⟩ := execDecode_next h
  · exact DecFrame.refl _
  · exact (decFrame_decBegin len cap s).trans (decFrame_runUnit hrun)

/-- The frame of every instruction of ENC. -/
theorem encFrame_exec {i : Instr} {s t : State} (hu : unitOf i = .enc) (h : exec i s = .next t) : EncFrame s t := by
  cases i with
  | encode len cap => exact encFrame_execEncode h
  | encStart len cap => exact encFrame_execEncStart h
  | encZero => exact encFrame_execEncZero h
  | encData b => exact encFrame_execEncData h
  | encCap b => exact encFrame_execEncCap h
  | encFinish => exact encFrame_execEncFinish h
  | _ => cases hu

/-- The frame of every instruction of DEC. -/
theorem decFrame_exec {i : Instr} {s t : State} (hu : unitOf i = .dec) (h : exec i s = .next t) : DecFrame s t := by
  cases i with
  | decode len cap => exact decFrame_execDecode h
  | decStart len cap => exact decFrame_execDecStart h
  | blkIllegal => exact decFrame_execBlkIllegal h
  | blkEmpty => exact decFrame_execBlkEmpty h
  | blkFull => exact decFrame_execBlkFull h
  | blkShort n => exact decFrame_execBlkShort h
  | decData => exact decFrame_execDecData h
  | decFinish => exact decFrame_execDecFinish h
  | _ => cases hu

/-- Settles O37, by the frames of the single steps, which a whole operation's run composes. -/
theorem instructionsKeepToTheirUnit : Obligations.InstructionsKeepToTheirUnit := by
  unfold Obligations.InstructionsKeepToTheirUnit
  exact fun i s t h => ⟨fun hu => encFrame_exec hu h, fun hu => decFrame_exec hu h⟩

end Sys2Proof.Machine
end

section
/-! ENC's invariant: an accepted START establishes it, every step keeps it, and under it no step stops
(40_encoder.md R79 to R86). -/

namespace Sys2Proof.Machine

/-- What an accepted input is to the test of START (R34, R41, R51, R52). -/
theorem startRefusal_of_accepts {u : UnitId} {X : List Byte} {cap : Nat} {s : State} (h : Accepts u X cap s) :
    startRefusal u X.length cap s = none := by
  obtain ⟨_, hlen, hcap, hin⟩ := h
  exact startRefusal_eq_none.mpr ⟨hlen, hcap, writtenBelow_of_hasBytes hin⟩

theorem encInv_encBegin {len cap : Nat} {s : State} (h : startRefusal .enc len cap s = none) :
    EncInv (encBegin len cap s) := by
  obtain ⟨_, hcap, hin⟩ := startRefusal_eq_none.mp h
  intro _
  exact ⟨rfl, le_rfl, (by decide : (1#8).toNat ≤ 254), le_rfl, le_rfl, nofun, Nat.zero_le _, rfl, hcap, hin⟩

/-! ### Room for the next write (R47, R48) -/

/-- While input is left, the write index is inside the output: every closed full block, `wr - 1 - rd` of
them, has its own share of the ceiling in `encBound`. -/
theorem enc_wr_lt_outCap {s : State} (hs : EncInv s) (hb : s.enc.phase = .busy) (hrd : s.enc.rd < s.enc.inLen) :
    s.enc.wr < s.enc.outCap := by
  obtain ⟨_, _, _, _, hfull, _, _, _, hcap, _⟩ := hs hb
  have hceil := le_mul_ceilDiv (k := 254) (by decide) s.enc.inLen
  unfold encBound at hcap
  omega

/-- The slot reserved for the open block's length byte is inside the output. -/
theorem enc_slot_lt_outCap {s : State} (hs : EncInv s) (hb : s.enc.phase = .busy) : s.enc.slot < s.enc.outCap := by
  obtain ⟨hwr, hcnt, _, _, hfull, _, hrd, _, hcap, _⟩ := hs hb
  have hceil := le_mul_ceilDiv (k := 254) (by decide) s.enc.inLen
  unfold encBound at hcap
  omega

/-! ### Every step keeps the invariant -/

theorem encInv_execEncZero {s t : State} (hs : EncInv s) (h : execEncZero s = .next t) : EncInv t := by
  obtain ⟨⟨hb, hrd, _⟩, _, rfl⟩ := execEncZero_eq_next.mp h
  obtain ⟨hwr, hcnt, _, hle, hfull, _, _, hout, hcap, hin⟩ := hs hb
  intro _
  simp only [setEnc_enc, setEnc_encIn, setSpace_encOut_encIn, BitVec.toNat_ofNat]
  exact ⟨trivial, by decide, by decide, by omega, by omega, nofun, by omega, hout, hcap, hin⟩

theorem encInv_execEncData {b : Byte} {s t : State} (hs : EncInv s) (h : execEncData b s = .next t) :
    EncInv t := by
  obtain ⟨⟨hb, hrd, _⟩, _, hcnt253, _, rfl⟩ := execEncData_eq_next.mp h
  obtain ⟨hwr, hcnt, _, hle, hfull, _, _, hout, hcap, hin⟩ := hs hb
  have hinc : (s.enc.cnt + 1#8).toNat = s.enc.cnt.toNat + 1 := by bv_omega
  intro _
  simp only [setEnc_enc, setEnc_encIn, setSpace_encOut_encIn, hinc]
  exact ⟨by omega, by omega, by omega, by omega, by omega, nofun, by omega, hout, hcap, hin⟩

theorem encInv_execEncCap {b : Byte} {s t : State} (hs : EncInv s) (h : execEncCap b s = .next t) :
    EncInv t := by
  obtain ⟨⟨hb, hrd, _⟩, _, hcnt254, _, _, rfl⟩ := execEncCap_eq_next.mp h
  obtain ⟨hwr, _, _, hle, hfull, _, _, hout, hcap, hin⟩ := hs hb
  intro _
  simp only [setEnc_enc, setEnc_encIn, setSpace_encOut_encIn, BitVec.toNat_ofNat]
  exact ⟨trivial, by decide, by decide, by omega, by omega, fun _ => ⟨trivial, by omega⟩, by omega, hout, hcap, hin⟩

theorem encInv_execEncFinish {s t : State} (h : execEncFinish s = .next t) : EncInv t := by
  obtain ⟨_, ⟨_, rfl⟩ | ⟨_, _, rfl⟩⟩ := execEncFinish_eq_next.mp h <;>
    exact encInv_of_not_busy (by simp)

theorem encInv_unitStep {s t : State} (hs : EncInv s) (h : unitStep .enc s = .next t) : EncInv t := by
  obtain h | ⟨b, h⟩ | ⟨b, h⟩ | h := unitStep_enc_cases h
  · exact encInv_execEncZero hs h
  · exact encInv_execEncData hs h
  · exact encInv_execEncCap hs h
  · exact encInv_execEncFinish h

/-! ### No step stops -/

/-- A BUSY ENC that meets its invariant always has a step, and the step answers a next state. -/
theorem unitStep_enc_answers {s : State} (hs : EncInv s) (hb : s.enc.phase = .busy) :
    ∃ t, unitStep .enc s = .next t := by
  obtain ⟨_, _, hcnt, _, _, _, hrd, _, _, hin⟩ := hs hb
  have hslot := enc_slot_lt_outCap hs hb
  obtain hend | hlt := Nat.eq_or_lt_of_le hrd
  · have hsel : selectStep .enc s = .next .encFinish := selectEnc_eq_next.mpr ⟨hb, .inl ⟨hend, rfl⟩⟩
    cases hj : s.enc.jc with
    | true => exact ⟨_, unitStep_of_select hsel (execEncFinish_eq_next.mpr ⟨⟨hb, hend⟩, .inl ⟨hj, rfl⟩⟩)⟩
    | false => exact ⟨_, unitStep_of_select hsel (execEncFinish_eq_next.mpr ⟨⟨hb, hend⟩, .inr ⟨hj, hslot, rfl⟩⟩)⟩
  · have hwr := enc_wr_lt_outCap hs hb hlt
    obtain ⟨b, hread⟩ := Option.isSome_iff_exists.mp (hin _ hlt)
    have hready := And.intro hb (And.intro hlt hread)
    have hselect {i : Instr} (h : decoded (.rawByte s.enc.cnt b) = .next i) : selectStep .enc s = .next i :=
      selectEnc_eq_next.mpr ⟨hb, .inr ⟨hlt, b, hread, decoded_rawByte_eq_next.mp h⟩⟩
    by_cases h0 : b = 0x00#8
    · subst h0
      have hsel := hselect (decoded_rawByte_eq_next.mpr (.inl ⟨rfl, rfl⟩))
      exact ⟨_, unitStep_of_select hsel (execEncZero_eq_next.mpr ⟨hready, hslot, rfl⟩)⟩
    · obtain h254 | h253 := Nat.eq_or_lt_of_le hcnt
      · have hsel := hselect (decoded_rawByte_eq_next.mpr (.inr (.inr ⟨h0, h254, rfl⟩)))
        exact ⟨_, unitStep_of_select hsel (execEncCap_eq_next.mpr ⟨hready, h0, h254, hwr, hslot, rfl⟩)⟩
      · have hle : s.enc.cnt.toNat ≤ 253 := Nat.le_of_lt_succ h253
        have hsel := hselect (decoded_rawByte_eq_next.mpr (.inr (.inl ⟨h0, hle, rfl⟩)))
        exact ⟨_, unitStep_of_select hsel (execEncData_eq_next.mpr ⟨hready, h0, hle, hwr, rfl⟩)⟩

end Sys2Proof.Machine
end

section
/-! DEC's invariant: an accepted START establishes it, every step keeps it, and under it no step stops
(41_decoder.md R94 to R105). -/

namespace Sys2Proof.Machine

theorem decInv_raiseMalformed (c : Cause) (s : State) : DecInv (raiseMalformed c s) :=
  decInv_of_not_busy (by simp) fun _ => ⟨rfl, rfl⟩

theorem decInv_decBegin {len cap : Nat} {s : State} (h : startRefusal .dec len cap s = none) :
    DecInv (decBegin len cap s) := by
  obtain ⟨_, hcap, hin⟩ := startRefusal_eq_none.mp h
  unfold decBegin
  split
  · exact decInv_raiseMalformed _ _
  · next hlen =>
    exact ⟨nofun, fun _ => ⟨Nat.pos_of_ne_zero hlen, le_rfl, Nat.zero_le _, fun _ => rfl, nofun, rfl, hcap, hin⟩⟩

/-- While DEC is BUSY its `FAIL` is 0. -/
theorem dec_fail_of_busy {s : State} (hs : DecInv s) (hb : s.dec.phase = .busy) : s.dec.fail = false := by
  obtain ⟨hfail, _⟩ := hs
  refine Bool.eq_false_iff.mpr fun hf => ?_
  obtain ⟨hdone, _⟩ := hfail hf
  rw [hb] at hdone
  cases hdone

/-! ### Every step keeps the invariant -/

/-- The header of a block with at least one data byte keeps the invariant (R96, R99, R100). -/
theorem decInv_openBlock {n : Byte} {s : State} (hs : DecInv s) (hb : s.dec.phase = .busy)
    (hn : 2 ≤ n.toNat) : DecInv (openBlock n s) := by
  rw [openBlock_eq]
  split
  · exact decInv_raiseMalformed _ s
  · next hfit =>
    have hf := dec_fail_of_busy hs hb
    obtain ⟨_, hbusy⟩ := hs
    obtain ⟨hlen, hwr, hrd, _, _, hout, hcap, hin⟩ := hbusy hb
    have hrem : (n - 1#8).toNat = n.toNat - 1 := by bv_omega
    have hn0 : n ≠ 0x00#8 := by
      rintro rfl
      exact absurd hn (by decide)
    have hlt := n.isLt
    refine ⟨by simp [hf], fun _ => ?_⟩
    simp only [setDec_dec, setDec_decIn, hrem]
    exact ⟨hlen, by omega, by omega, nofun, fun _ => ⟨by omega, by omega, by omega, by omega, hn0⟩, hout, hcap, hin⟩

/-- The end of a block keeps the invariant: an implied zero is written only where input is left (R101). -/
theorem decInv_blockEnd {s t : State} (hf : s.dec.fail = false)
    (hlen : 1 ≤ s.dec.inLen) (hwr : s.dec.wr + 1 ≤ s.dec.rd) (hrd : s.dec.rd ≤ s.dec.inLen)
    (hrem : s.dec.rem = 0#8) (hout : s.dec.outLen = 0) (hcap : s.dec.inLen ≤ s.dec.outCap)
    (hin : Memory.WrittenBelow s.decIn s.dec.inLen) (h : blockEnd s = .next t) : DecInv t := by
  obtain ⟨_, _, rfl⟩ | ⟨_, rfl⟩ := blockEnd_eq_next.mp h
  · exact ⟨by simp [hf], fun _ => ⟨hlen, hwr, hrd, fun _ => hrem, nofun, hout, hcap, hin⟩⟩
  · exact ⟨by simp [hf], fun _ => ⟨hlen, Nat.le_of_succ_le hwr, hrd, fun _ => hrem, nofun, hout, hcap, hin⟩⟩

/-- `BLK.EMPTY` is its header and then the end of its block (R98). -/
theorem blockEnd_of_execBlkEmpty {s t : State} (h : execBlkEmpty s = .next t) :
    decHdrReady 0x01#8 s = true ∧ blockEnd (takeHeader 0x01#8 s) = .next t := by
  obtain ⟨hready, _⟩ := execBlkEmpty_eq_next.mp h
  exact ⟨hready, by rwa [execBlkEmpty, if_pos hready] at h⟩

theorem decInv_execBlkEmpty {s t : State} (hs : DecInv s) (h : execBlkEmpty s = .next t) : DecInv t := by
  obtain ⟨hready, hend⟩ := blockEnd_of_execBlkEmpty h
  obtain ⟨hb, _, hlt, _⟩ := decHdrReady_iff.mp hready
  have hf := dec_fail_of_busy hs hb
  obtain ⟨_, hbusy⟩ := hs
  obtain ⟨hlen, hwr, _, _, _, hout, hcap, hin⟩ := hbusy hb
  exact decInv_blockEnd (s := takeHeader 0x01#8 s) hf hlen (Nat.succ_le_succ hwr) hlt rfl hout hcap hin hend

theorem decInv_execDecData {s t : State} (hs : DecInv s) (h : execDecData s = .next t) : DecInv t := by
  obtain ⟨⟨hb, hst, _⟩, b, ⟨hlt, _⟩, hcases⟩ := execDecData_eq_next.mp h
  have hf := dec_fail_of_busy hs hb
  obtain ⟨_, hbusy⟩ := hs
  obtain ⟨hlen, _, _, _, hdata, hout, hcap, hin⟩ := hbusy hb
  obtain ⟨hrem, hrem254, hfit, hwr, hcode⟩ := hdata hst
  obtain ⟨_, rfl⟩ | ⟨_, _, ⟨hlast, hend⟩ | ⟨hmore, rfl⟩⟩ := hcases
  · exact decInv_raiseMalformed _ s
  · exact decInv_blockEnd (s := copied b s) hf hlen (Nat.succ_le_succ hwr) hlt hlast hout hcap hin hend
  · have hdec : (s.dec.rem - 1#8).toNat = s.dec.rem.toNat - 1 := by bv_omega
    have hleft : (s.dec.rem - 1#8).toNat ≠ 0 := fun h0 => hmore (BitVec.eq_of_toNat_eq h0)
    refine ⟨by simp [copied, hf], fun _ => ?_⟩
    simp only [copied, setDec_dec, setDec_decIn, setSpace_decOut_decIn, hst, reduceCtorEq, false_implies]
    exact ⟨hlen, by omega, by omega, trivial, fun _ => ⟨by omega, by omega, by omega, by omega, hcode⟩, hout, hcap, hin⟩

theorem decInv_execDecFinish {s t : State} (hs : DecInv s) (h : execDecFinish s = .next t) : DecInv t := by
  obtain ⟨⟨hb, _, _⟩, rfl⟩ := execDecFinish_eq_next.mp h
  exact decInv_of_not_busy (by simp) (by simp [dec_fail_of_busy hs hb])

theorem decInv_unitStep {s t : State} (hs : DecInv s) (h : unitStep .dec s = .next t) : DecInv t := by
  obtain h | h | ⟨n, h⟩ | h | h | h := unitStep_dec_cases h
  · obtain ⟨_, rfl⟩ := execBlkIllegal_eq_next.mp h
    exact decInv_raiseMalformed _ s
  · exact decInv_execBlkEmpty hs h
  · obtain ⟨hready, ⟨hn, _⟩, rfl⟩ := execBlkShort_eq_next.mp h
    exact decInv_openBlock hs (decHdrReady_iff.mp hready).1 hn
  · obtain ⟨hready, rfl⟩ := execBlkFull_eq_next.mp h
    exact decInv_openBlock hs (decHdrReady_iff.mp hready).1 (by decide)
  · exact decInv_execDecData hs h
  · exact decInv_execDecFinish hs h

/-! ### No step stops -/

/-- `BLOCK_END` stops only where it would write outside the output. -/
theorem blockEnd_answers {s : State} (h : s.dec.rd ≠ s.dec.inLen → s.dec.wr < s.dec.outCap) :
    ∃ t, blockEnd s = .next t := by
  by_cases hz : s.dec.code ≠ 0xFF#8 ∧ s.dec.rd ≠ s.dec.inLen
  · exact ⟨_, blockEnd_eq_next.mpr (.inl ⟨hz, h hz.2, rfl⟩)⟩
  · exact ⟨_, blockEnd_eq_next.mpr (.inr ⟨hz, rfl⟩)⟩

/-- The four classes of a length byte (R66). -/
theorem decodeLengthByte_cases (n : Byte) :
    (n = 0x00#8 ∧ decodeLengthByte n = .blkIllegal) ∨ (n = 0x01#8 ∧ decodeLengthByte n = .blkEmpty) ∨
      (n = 0xFF#8 ∧ decodeLengthByte n = .blkFull) ∨
      ((2 ≤ n.toNat ∧ n.toNat ≤ 254) ∧ decodeLengthByte n = .blkShort n) := by
  by_cases h0 : n = 0x00#8
  · exact .inl ⟨h0, by simp [decodeLengthByte, h0]⟩
  · by_cases h1 : n = 0x01#8
    · exact .inr (.inl ⟨h1, by simp [decodeLengthByte, h1]⟩)
    · by_cases hF : n = 0xFF#8
      · exact .inr (.inr (.inl ⟨hF, by simp [decodeLengthByte, hF]⟩))
      · exact .inr (.inr (.inr ⟨by bv_omega, by simp [decodeLengthByte, h0, h1, hF]⟩))

/-- Whatever the length byte, its row answers a next state where it is enabled and the output has room. -/
theorem lengthByte_answers {n : Byte} {s : State} (hready : decHdrReady n s = true)
    (hroom : s.dec.wr < s.dec.outCap) : ∃ t, stepMeaning (decodeLengthByte n) s = .next t := by
  obtain ⟨rfl, hrow⟩ | ⟨rfl, hrow⟩ | ⟨rfl, hrow⟩ | ⟨hn, hrow⟩ := decodeLengthByte_cases n <;> rw [hrow]
  · exact ⟨_, execBlkIllegal_eq_next.mpr ⟨hready, rfl⟩⟩
  · obtain ⟨t, ht⟩ := blockEnd_answers (s := takeHeader 0x01#8 s) fun _ => hroom
    exact ⟨t, by rw [stepMeaning, execBlkEmpty, if_pos hready, ht]⟩
  · exact ⟨_, execBlkFull_eq_next.mpr ⟨hready, rfl⟩⟩
  · exact ⟨_, execBlkShort_eq_next.mpr ⟨hready, hn, rfl⟩⟩

/-- A data byte's step answers a next state where it is enabled and the output has room for the byte and, if
input is left, for the implied zero after it. -/
theorem execDecData_answers {s : State} {b : Byte}
    (hready : s.dec.phase = .busy ∧ s.dec.st = .data ∧ 1 ≤ s.dec.rem.toNat)
    (hread : s.dec.rd < s.dec.inLen ∧ Memory.read s.decIn s.dec.rd = some b) (hroom : s.dec.wr < s.dec.outCap)
    (hzero : s.dec.rd + 1 ≠ s.dec.inLen → s.dec.wr + 1 < s.dec.outCap) : ∃ t, execDecData s = .next t := by
  by_cases h0 : b = 0x00#8
  · exact ⟨_, execDecData_eq_next.mpr ⟨hready, b, hread, .inl ⟨h0, rfl⟩⟩⟩
  · by_cases hlast : s.dec.rem - 1#8 = 0x00#8
    · obtain ⟨t, ht⟩ := blockEnd_answers (s := copied b s) hzero
      exact ⟨t, execDecData_eq_next.mpr ⟨hready, b, hread, .inr ⟨h0, hroom, .inl ⟨hlast, ht⟩⟩⟩⟩
    · exact ⟨_, execDecData_eq_next.mpr ⟨hready, b, hread, .inr ⟨h0, hroom, .inr ⟨hlast, rfl⟩⟩⟩⟩

/-- A BUSY DEC that meets its invariant always has a step, and the step answers a next state. -/
theorem unitStep_dec_answers {s : State} (hs : DecInv s) (hb : s.dec.phase = .busy) :
    ∃ t, unitStep .dec s = .next t := by
  obtain ⟨_, hbusy⟩ := hs
  obtain ⟨_, hwr, hrd, _, hdata, _, hcap, hin⟩ := hbusy hb
  cases hst : s.dec.st with
  | data =>
    obtain ⟨hrem, _, hfit, hwr1, _⟩ := hdata hst
    have hlt : s.dec.rd < s.dec.inLen := by omega
    obtain ⟨b, hread⟩ := Option.isSome_iff_exists.mp (hin _ hlt)
    obtain ⟨t, ht⟩ := execDecData_answers ⟨hb, hst, hrem⟩ ⟨hlt, hread⟩ (by omega) (by omega)
    exact ⟨t, unitStep_of_select (selectDec_eq_next.mpr ⟨hb, .inl ⟨hst, rfl⟩⟩) ht⟩
  | hdr =>
    obtain hend | hlt := Nat.eq_or_lt_of_le hrd
    · have hsel : selectStep .dec s = .next .decFinish :=
        selectDec_eq_next.mpr ⟨hb, .inr (.inl ⟨hst, hend, rfl⟩)⟩
      exact ⟨_, unitStep_of_select hsel (execDecFinish_eq_next.mpr ⟨⟨hb, hst, hend⟩, rfl⟩)⟩
    · obtain ⟨n, hread⟩ := Option.isSome_iff_exists.mp (hin _ hlt)
      obtain ⟨t, ht⟩ := lengthByte_answers (decHdrReady_iff.mpr ⟨hb, hst, hlt, hread⟩) (by omega)
      exact ⟨t, unitStep_of_select (selectDec_eq_next.mpr ⟨hb, .inr (.inr ⟨hst, hlt, n, hread, rfl⟩)⟩) ht⟩

end Sys2Proof.Machine
end

section
/-! Two systems that run the same operation on the same input (10_state.md R15, 70_reset_and_hazards.md R137):
their runs stay alike in all but the capacities and what the operation never reads. -/

namespace Sys2Proof.Machine

/-! ### Spaces and runs -/

/-- The two spaces agree at the indices of `P`. -/
def Memory.AgreeOn (P : Nat → Prop) (m m' : Memory) : Prop := ∀ i, P i → Memory.read m' i = Memory.read m i

/-- The same byte at the same index on both sides makes them agree there too. -/
theorem Memory.AgreeOn.write {P Q : Nat → Prop} {m m' : Memory} {j : Nat} (h : Memory.AgreeOn P m m')
    (hQ : ∀ i, Q i → i ≠ j → P i) (v : Byte) : Memory.AgreeOn Q (Memory.write m j v) (Memory.write m' j v) := by
  intro i hi
  simp only [read_write]
  split
  · rfl
  · next hne => exact h i (hQ i hi hne)

/-- Two spaces that hold the same sequence agree on its indices. -/
theorem agreeOn_of_hasBytes {m m' : Memory} {X : List Byte} (h : Memory.HasBytes m X) (h' : Memory.HasBytes m' X) :
    Memory.AgreeOn (· < X.length) m m' := fun i hi => (h' i hi).trans (h i hi).symm

/-- A relation that makes both sides BUSY alike, and under which both answer a step and stay related, holds
after any number of steps. -/
theorem runUnit_related {u : UnitId} {R : State → State → Prop}
    (hphase : ∀ s s', R s s' → s'.phaseOf u = s.phaseOf u)
    (hstep : ∀ s s', R s s' → s.phaseOf u = .busy →
      ∃ t t', unitStep u s = .next t ∧ unitStep u s' = .next t' ∧ R t t')
    (k : Nat) {s s' : State} (h : R s s') :
    ∃ t t', runUnit u k s = .next t ∧ runUnit u k s' = .next t' ∧ R t t' := by
  induction k generalizing s s' with
  | zero => exact ⟨s, s', rfl, rfl, h⟩
  | succ k ih =>
    by_cases hb : s.phaseOf u = .busy
    · obtain ⟨a, a', ha, ha', hR⟩ := hstep s s' h hb
      obtain ⟨t, t', ht, ht', hR'⟩ := ih hR
      refine ⟨t, t', ?_, ?_, hR'⟩
      · rw [runUnit_succ_busy k hb, ha, andThen_next, ht]
      · rw [runUnit_succ_busy k ((hphase s s' h).trans hb), ha', andThen_next, ht']
    · have hb' : s'.phaseOf u ≠ .busy := fun hb' => hb ((hphase s s' h).symm.trans hb')
      exact ⟨s, s', runUnit_not_busy _ hb, runUnit_not_busy _ hb', h⟩

/-! ### ENC -/

/-- ENC stands alike in both systems: the registers but `OUT_CAP`, the input, and the output bytes written so
far, which are those below `wr` but for the reserved slot.  After `DONE` the slot is `OUT_LEN`. -/
structure EncAlike (s s' : State) : Prop where
  regs : ∃ cap, s'.enc = { s.enc with outCap := cap }
  input : Memory.AgreeOn (· < s.enc.inLen) s.encIn s'.encIn
  output : Memory.AgreeOn (fun i => i < s.enc.wr ∧ i ≠ s.enc.slot) s.encOut s'.encOut
  slot_le : s.enc.slot ≤ s.enc.wr
  outLen_le : s.enc.outLen ≤ s.enc.slot

theorem EncAlike.phase {s s' : State} (h : EncAlike s s') : s'.enc.phase = s.enc.phase := by
  obtain ⟨cap, hregs⟩ := h.regs
  rw [hregs]

theorem encAlike_encBegin {X : List Byte} {cap cap' : Nat} {s s' : State} (h : Accepts .enc X cap s)
    (h' : Accepts .enc X cap' s') : EncAlike (encBegin X.length cap s) (encBegin X.length cap' s') := by
  obtain ⟨_, _, _, hin⟩ := h
  obtain ⟨_, _, _, hin'⟩ := h'
  refine ⟨⟨cap', rfl⟩, agreeOn_of_hasBytes hin hin', ?_, Nat.zero_le _, le_rfl⟩
  rintro i ⟨hi, hne⟩
  exact absurd (Nat.lt_one_iff.mp hi) hne

/-- ENC selects the same instruction in both. -/
theorem selectEnc_of_alike {s s' : State} {i : Instr} (h : EncAlike s s') (hi : selectEnc s = .next i) :
    selectEnc s' = .next i := by
  obtain ⟨cap, hregs⟩ := h.regs
  rw [selectEnc_eq_next] at hi ⊢
  rw [hregs]
  obtain ⟨hb, hend | ⟨hlt, b, hread, hrow⟩⟩ := hi
  · exact ⟨hb, .inl hend⟩
  · exact ⟨hb, .inr ⟨hlt, b, (h.input _ hlt).trans hread, hrow⟩⟩

theorem encAlike_execEncZero {s s' t t' : State} (h : EncAlike s s') (ht : execEncZero s = .next t)
    (ht' : execEncZero s' = .next t') : EncAlike t t' := by
  obtain ⟨⟨cap, hregs⟩, hin, hout, hslot, hlen⟩ := h
  obtain ⟨_, _, rfl⟩ := execEncZero_eq_next.mp ht
  obtain ⟨_, _, rfl⟩ := execEncZero_eq_next.mp ht'
  rw [hregs]
  refine ⟨⟨cap, rfl⟩, hin, hout.write ?_ _, Nat.le_succ _, hlen.trans hslot⟩
  rintro i ⟨hi, hne⟩ hne'
  exact ⟨Nat.lt_of_le_of_ne (Nat.le_of_lt_succ hi) hne, hne'⟩

theorem encAlike_execEncData {b : Byte} {s s' t t' : State} (h : EncAlike s s') (ht : execEncData b s = .next t)
    (ht' : execEncData b s' = .next t') : EncAlike t t' := by
  obtain ⟨⟨cap, hregs⟩, hin, hout, hslot, hlen⟩ := h
  obtain ⟨_, _, _, _, rfl⟩ := execEncData_eq_next.mp ht
  obtain ⟨_, _, _, _, rfl⟩ := execEncData_eq_next.mp ht'
  rw [hregs]
  refine ⟨⟨cap, rfl⟩, hin, hout.write ?_ _, Nat.le_succ_of_le hslot, hlen⟩
  rintro i ⟨hi, hne⟩ hne'
  exact ⟨Nat.lt_of_le_of_ne (Nat.le_of_lt_succ hi) hne', hne⟩

theorem encAlike_execEncCap {b : Byte} {s s' t t' : State} (h : EncAlike s s') (ht : execEncCap b s = .next t)
    (ht' : execEncCap b s' = .next t') : EncAlike t t' := by
  obtain ⟨⟨cap, hregs⟩, hin, hout, hslot, hlen⟩ := h
  obtain ⟨_, _, _, _, _, rfl⟩ := execEncCap_eq_next.mp ht
  obtain ⟨_, _, _, _, _, rfl⟩ := execEncCap_eq_next.mp ht'
  rw [hregs]
  have hdata : Memory.AgreeOn (fun i => i < s.enc.wr + 1 ∧ i ≠ s.enc.slot) _ _ :=
    hout.write (j := s.enc.wr) (fun i hi hne => ⟨Nat.lt_of_le_of_ne (Nat.le_of_lt_succ hi.1) hne, hi.2⟩) b
  refine ⟨⟨cap, rfl⟩, hin, hdata.write ?_ _, Nat.le_succ _, (hlen.trans hslot).trans (Nat.le_succ _)⟩
  rintro i ⟨hi, hne⟩ hne'
  exact ⟨Nat.lt_of_le_of_ne (Nat.le_of_lt_succ hi) hne, hne'⟩

theorem encAlike_execEncFinish {s s' t t' : State} (h : EncAlike s s') (ht : execEncFinish s = .next t)
    (ht' : execEncFinish s' = .next t') : EncAlike t t' := by
  obtain ⟨⟨cap, hregs⟩, hin, hout, hslot, hlen⟩ := h
  rw [execEncFinish_eq_next, hregs] at ht'
  obtain ⟨_, ⟨hj, rfl⟩ | ⟨hj, _, rfl⟩⟩ := execEncFinish_eq_next.mp ht
  · obtain ⟨_, ⟨_, rfl⟩ | ⟨hj', _⟩⟩ := ht'
    · exact ⟨⟨cap, rfl⟩, hin, hout, hslot, le_rfl⟩
    · exact absurd (hj.symm.trans hj') nofun
  · obtain ⟨_, ⟨hj', _⟩ | ⟨_, _, rfl⟩⟩ := ht'
    · exact absurd (hj.symm.trans hj') nofun
    · refine ⟨⟨cap, rfl⟩, hin, hout.write ?_ _, Nat.le_succ _, le_rfl⟩
      rintro i ⟨hi, hne⟩ hne'
      exact ⟨Nat.lt_of_le_of_ne (Nat.le_of_lt_succ hi) hne, hne'⟩

theorem encAlike_unitStep {s s' t t' : State} (h : EncAlike s s') (ht : unitStep .enc s = .next t)
    (ht' : unitStep .enc s' = .next t') : EncAlike t t' := by
  obtain ⟨i, hi, hmeaning⟩ := andThen_eq_next.mp ht
  have hi' : selectStep .enc s' = .next i := selectEnc_of_alike h hi
  rw [unitStep, hi', andThen_next] at ht'
  obtain ⟨_, ⟨_, rfl⟩ | ⟨_, b, _, ⟨_, rfl⟩ | ⟨_, _, rfl⟩ | ⟨_, _, rfl⟩⟩⟩ := selectEnc_eq_next.mp hi
  · exact encAlike_execEncFinish h hmeaning ht'
  · exact encAlike_execEncZero h hmeaning ht'
  · exact encAlike_execEncData h hmeaning ht'
  · exact encAlike_execEncCap h hmeaning ht'

/-- Two runs of ENC from like states answer, and end in like states that meet the invariant. -/
theorem runUnit_enc_alike (k : Nat) {s s' : State} (hs : EncInv s) (hs' : EncInv s') (h : EncAlike s s') :
    ∃ t t', runUnit .enc k s = .next t ∧ runUnit .enc k s' = .next t' ∧ EncInv t ∧ EncInv t' ∧ EncAlike t t' := by
  refine runUnit_related (u := .enc) (R := fun s s' => EncInv s ∧ EncInv s' ∧ EncAlike s s')
    (fun s s' ⟨_, _, hR⟩ => hR.phase) ?_ k ⟨hs, hs', h⟩
  rintro s s' ⟨hs, hs', hR⟩ hb
  obtain ⟨t, ht⟩ := unitStep_enc_answers hs hb
  obtain ⟨t', ht'⟩ := unitStep_enc_answers hs' (hR.phase.trans hb)
  exact ⟨t, t', ht, ht', encInv_unitStep hs ht, encInv_unitStep hs' ht', encAlike_unitStep hR ht ht'⟩

/-- An accepted ENCODE is its START and then the run of ENC (R90). -/
theorem exec_encode_of_accepts {X : List Byte} {cap : Nat} {s : State} (h : Accepts .enc X cap s) :
    exec (.encode X.length cap) s = runUnit .enc (X.length + 1) (encBegin X.length cap s) :=
  onStart_accepted h fun t => runUnit .enc (X.length + 1) (encBegin X.length cap t)

/-- Two accepted ENCODEs of the same input end alike. -/
theorem exec_encode_alike {X : List Byte} {cap cap' : Nat} {s s' : State} (h : Accepts .enc X cap s)
    (h' : Accepts .enc X cap' s') :
    ∃ t t', exec (.encode X.length cap) s = .next t ∧ exec (.encode X.length cap') s' = .next t' ∧
      EncInv t ∧ EncInv t' ∧ EncAlike t t' := by
  rw [exec_encode_of_accepts h, exec_encode_of_accepts h']
  exact runUnit_enc_alike (X.length + 1) (encInv_encBegin (startRefusal_of_accepts h))
    (encInv_encBegin (startRefusal_of_accepts h')) (encAlike_encBegin h h')

/-- Like states of ENC hold the same `OUT_LEN` and the same bytes below it. -/
theorem EncAlike.result {s s' : State} (h : EncAlike s s') :
    s.enc.outLen = s'.enc.outLen ∧ ∀ i, i < s.enc.outLen → Memory.read s.encOut i = Memory.read s'.encOut i := by
  obtain ⟨⟨cap, hregs⟩, _, hout, hslot, hlen⟩ := h
  refine ⟨by rw [hregs], fun i hi => (hout i ?_).symm⟩
  exact ⟨by omega, by omega⟩

/-! ### DEC -/

/-- DEC stands alike in both systems: the registers but `OUT_CAP` and, between blocks, `code`, the input, and,
unless the operation has failed, the output bytes below `wr`. -/
structure DecAlike (s s' : State) : Prop where
  regs : ∃ cap code, s'.dec = { s.dec with outCap := cap, code := code } ∧ (s.dec.st = .data → code = s.dec.code)
  input : Memory.AgreeOn (· < s.dec.inLen) s.decIn s'.decIn
  output : s.dec.fail = false → Memory.AgreeOn (· < s.dec.wr) s.decOut s'.decOut
  outLen_le : s.dec.outLen ≤ s.dec.wr

theorem DecAlike.phase {s s' : State} (h : DecAlike s s') : s'.dec.phase = s.dec.phase := by
  obtain ⟨cap, code, hregs, _⟩ := h.regs
  rw [hregs]

/-- A failure is alike whatever the cause and whatever stood in the output. -/
theorem decAlike_raiseMalformed (c : Cause) {s s' : State} (h : DecAlike s s') :
    DecAlike (raiseMalformed c s) (raiseMalformed c s') := by
  obtain ⟨⟨cap, code, hregs, hcode⟩, hin, _, _⟩ := h
  exact ⟨⟨cap, code, by simp [hregs], hcode⟩, hin, nofun, Nat.zero_le _⟩

theorem decAlike_decBegin {X : List Byte} {cap cap' : Nat} {s s' : State} (h : Accepts .dec X cap s)
    (h' : Accepts .dec X cap' s') : DecAlike (decBegin X.length cap s) (decBegin X.length cap' s') := by
  obtain ⟨_, _, _, hin⟩ := h
  obtain ⟨_, _, _, hin'⟩ := h'
  have hinit : DecAlike (decInit X.length cap s) (decInit X.length cap' s') :=
    ⟨⟨cap', s'.dec.code, rfl, nofun⟩, agreeOn_of_hasBytes hin hin', fun _ _ hi => absurd hi (Nat.not_lt_zero _),
      le_rfl⟩
  unfold decBegin
  split
  · exact decAlike_raiseMalformed _ hinit
  · exact hinit

/-- DEC selects the same instruction in both. -/
theorem selectDec_of_alike {s s' : State} {i : Instr} (h : DecAlike s s') (hi : selectDec s = .next i) :
    selectDec s' = .next i := by
  obtain ⟨cap, code, hregs, _⟩ := h.regs
  rw [selectDec_eq_next] at hi ⊢
  rw [hregs]
  obtain ⟨hb, hdata | hend | ⟨hst, hlt, n, hread, hrow⟩⟩ := hi
  · exact ⟨hb, .inl hdata⟩
  · exact ⟨hb, .inr (.inl hend)⟩
  · exact ⟨hb, .inr (.inr ⟨hst, hlt, n, (h.input _ hlt).trans hread, hrow⟩)⟩

/-- A length byte makes `code` alike too. -/
theorem decAlike_takeHeader (n : Byte) {s s' : State} (h : DecAlike s s') :
    DecAlike (takeHeader n s) (takeHeader n s') ∧ (takeHeader n s').dec.code = (takeHeader n s).dec.code := by
  obtain ⟨⟨cap, code, hregs, _⟩, hin, hout, hlen⟩ := h
  simp only [takeHeader_eq, hregs]
  exact ⟨⟨⟨cap, n, rfl, fun _ => rfl⟩, hin, hout, hlen⟩, rfl⟩

theorem decAlike_openBlock (n : Byte) {s s' : State} (h : DecAlike s s') :
    DecAlike (openBlock n s) (openBlock n s') := by
  obtain ⟨cap, code, hregs, _⟩ := h.regs
  by_cases hover : s.dec.inLen < s.dec.rd + n.toNat
  · have hover' : s'.dec.inLen < s'.dec.rd + n.toNat := by rwa [hregs]
    rw [openBlock_eq, openBlock_eq, if_pos hover, if_pos hover']
    exact decAlike_raiseMalformed _ h
  · have hover' : ¬s'.dec.inLen < s'.dec.rd + n.toNat := by rwa [hregs]
    obtain ⟨_, hin, hout, hlen⟩ := h
    rw [openBlock_eq, openBlock_eq, if_neg hover, if_neg hover', hregs]
    exact ⟨⟨cap, n, rfl, fun _ => rfl⟩, hin, hout, hlen⟩

/-- The end of a block, once `code` is alike, writes the implied zero in both or in neither (R101). -/
theorem decAlike_blockEnd {s s' t t' : State} (h : DecAlike s s') (hcode : s'.dec.code = s.dec.code)
    (ht : blockEnd s = .next t) (ht' : blockEnd s' = .next t') : DecAlike t t' := by
  obtain ⟨⟨cap, code, hregs, _⟩, hin, hout, hlen⟩ := h
  rw [blockEnd_eq_next, hcode, hregs] at ht'
  obtain ⟨hz, _, rfl⟩ | ⟨hz, rfl⟩ := blockEnd_eq_next.mp ht
  · obtain ⟨_, _, rfl⟩ | ⟨hz', _⟩ := ht'
    · refine ⟨⟨cap, code, rfl, nofun⟩, hin, fun hf => (hout hf).write ?_ _, Nat.le_succ_of_le hlen⟩
      exact fun i hi hne => Nat.lt_of_le_of_ne (Nat.le_of_lt_succ hi) hne
    · exact absurd hz hz'
  · obtain ⟨hz', _⟩ | ⟨_, rfl⟩ := ht'
    · exact absurd hz' hz
    · exact ⟨⟨cap, code, rfl, nofun⟩, hin, hout, hlen⟩

theorem decAlike_copied (b : Byte) {s s' : State} (h : DecAlike s s') : DecAlike (copied b s) (copied b s') := by
  obtain ⟨⟨cap, code, hregs, hcode⟩, hin, hout, hlen⟩ := h
  unfold copied
  rw [hregs]
  refine ⟨⟨cap, code, rfl, hcode⟩, hin, fun hf => (hout hf).write ?_ _, Nat.le_succ_of_le hlen⟩
  exact fun i hi hne => Nat.lt_of_le_of_ne (Nat.le_of_lt_succ hi) hne

theorem decAlike_execBlkEmpty {s s' t t' : State} (h : DecAlike s s') (ht : execBlkEmpty s = .next t)
    (ht' : execBlkEmpty s' = .next t') : DecAlike t t' := by
  obtain ⟨halike, hcode⟩ := decAlike_takeHeader 0x01#8 h
  exact decAlike_blockEnd halike hcode (blockEnd_of_execBlkEmpty ht).2 (blockEnd_of_execBlkEmpty ht').2

theorem decAlike_execDecData {s s' t t' : State} (h : DecAlike s s') (ht : execDecData s = .next t)
    (ht' : execDecData s' = .next t') : DecAlike t t' := by
  obtain ⟨⟨_, hst, _⟩, b, ⟨hlt, hread⟩, hcases⟩ := execDecData_eq_next.mp ht
  obtain ⟨_, b', ⟨_, hread'⟩, hcases'⟩ := execDecData_eq_next.mp ht'
  obtain ⟨cap, code, hregs, hcode⟩ := h.regs
  have hrd : s'.dec.rd = s.dec.rd := by rw [hregs]
  have hrem : s'.dec.rem = s.dec.rem := by rw [hregs]
  have hb : b' = b := by
    rw [hrd, h.input _ hlt, hread] at hread'
    exact (Option.some.inj hread').symm
  rw [hb, hrem] at hcases'
  obtain ⟨h0, rfl⟩ | ⟨h0, _, ⟨hlast, hend⟩ | ⟨hmore, rfl⟩⟩ := hcases
  · obtain ⟨_, rfl⟩ | ⟨h0', _⟩ := hcases'
    · exact decAlike_raiseMalformed _ h
    · exact absurd h0 h0'
  · obtain ⟨h0', _⟩ | ⟨_, _, ⟨_, hend'⟩ | ⟨hmore, _⟩⟩ := hcases'
    · exact absurd h0' h0
    · refine decAlike_blockEnd (decAlike_copied b h) ?_ hend hend'
      simp only [copied, setDec_dec, hregs]
      exact hcode hst
    · exact absurd hlast hmore
  · obtain ⟨h0', _⟩ | ⟨_, _, ⟨hlast, _⟩ | ⟨_, rfl⟩⟩ := hcases'
    · exact absurd h0' h0
    · exact absurd hlast hmore
    · exact decAlike_copied b h

theorem decAlike_execDecFinish {s s' t t' : State} (h : DecAlike s s') (ht : execDecFinish s = .next t)
    (ht' : execDecFinish s' = .next t') : DecAlike t t' := by
  obtain ⟨⟨cap, code, hregs, hcode⟩, hin, hout, _⟩ := h
  obtain ⟨_, rfl⟩ := execDecFinish_eq_next.mp ht
  obtain ⟨_, rfl⟩ := execDecFinish_eq_next.mp ht'
  rw [hregs]
  exact ⟨⟨cap, code, rfl, hcode⟩, hin, hout, le_rfl⟩

theorem decAlike_lengthByte (n : Byte) {s s' t t' : State} (h : DecAlike s s')
    (ht : stepMeaning (decodeLengthByte n) s = .next t) (ht' : stepMeaning (decodeLengthByte n) s' = .next t') :
    DecAlike t t' := by
  obtain ⟨_, hrow⟩ | ⟨_, hrow⟩ | ⟨_, hrow⟩ | ⟨_, hrow⟩ := decodeLengthByte_cases n <;> rw [hrow] at ht ht'
  · obtain ⟨_, rfl⟩ := execBlkIllegal_eq_next.mp ht
    obtain ⟨_, rfl⟩ := execBlkIllegal_eq_next.mp ht'
    exact decAlike_raiseMalformed _ h
  · exact decAlike_execBlkEmpty h ht ht'
  · obtain ⟨_, rfl⟩ := execBlkFull_eq_next.mp ht
    obtain ⟨_, rfl⟩ := execBlkFull_eq_next.mp ht'
    exact decAlike_openBlock _ h
  · obtain ⟨_, _, rfl⟩ := execBlkShort_eq_next.mp ht
    obtain ⟨_, _, rfl⟩ := execBlkShort_eq_next.mp ht'
    exact decAlike_openBlock n h

theorem decAlike_unitStep {s s' t t' : State} (h : DecAlike s s') (ht : unitStep .dec s = .next t)
    (ht' : unitStep .dec s' = .next t') : DecAlike t t' := by
  obtain ⟨i, hi, hmeaning⟩ := andThen_eq_next.mp ht
  have hi' : selectStep .dec s' = .next i := selectDec_of_alike h hi
  rw [unitStep, hi', andThen_next] at ht'
  obtain ⟨_, ⟨_, rfl⟩ | ⟨_, _, rfl⟩ | ⟨_, _, n, _, rfl⟩⟩ := selectDec_eq_next.mp hi
  · exact decAlike_execDecData h hmeaning ht'
  · exact decAlike_execDecFinish h hmeaning ht'
  · exact decAlike_lengthByte n h hmeaning ht'

/-- Two runs of DEC from like states answer, and end in like states that meet the invariant. -/
theorem runUnit_dec_alike (k : Nat) {s s' : State} (hs : DecInv s) (hs' : DecInv s') (h : DecAlike s s') :
    ∃ t t', runUnit .dec k s = .next t ∧ runUnit .dec k s' = .next t' ∧ DecInv t ∧ DecInv t' ∧ DecAlike t t' := by
  refine runUnit_related (u := .dec) (R := fun s s' => DecInv s ∧ DecInv s' ∧ DecAlike s s')
    (fun s s' ⟨_, _, hR⟩ => hR.phase) ?_ k ⟨hs, hs', h⟩
  rintro s s' ⟨hs, hs', hR⟩ hb
  obtain ⟨t, ht⟩ := unitStep_dec_answers hs hb
  obtain ⟨t', ht'⟩ := unitStep_dec_answers hs' (hR.phase.trans hb)
  exact ⟨t, t', ht, ht', decInv_unitStep hs ht, decInv_unitStep hs' ht', decAlike_unitStep hR ht ht'⟩

/-- An accepted DECODE is its START and then the run of DEC (R110). -/
theorem exec_decode_of_accepts {X : List Byte} {cap : Nat} {s : State} (h : Accepts .dec X cap s) :
    exec (.decode X.length cap) s = runUnit .dec (X.length + 1) (decBegin X.length cap s) :=
  onStart_accepted h fun t => runUnit .dec (X.length + 1) (decBegin X.length cap t)

/-- Two accepted DECODEs of the same input end alike. -/
theorem exec_decode_alike {X : List Byte} {cap cap' : Nat} {s s' : State} (h : Accepts .dec X cap s)
    (h' : Accepts .dec X cap' s') :
    ∃ t t', exec (.decode X.length cap) s = .next t ∧ exec (.decode X.length cap') s' = .next t' ∧
      DecInv t ∧ DecInv t' ∧ DecAlike t t' := by
  rw [exec_decode_of_accepts h, exec_decode_of_accepts h']
  exact runUnit_dec_alike (X.length + 1) (decInv_decBegin (startRefusal_of_accepts h))
    (decInv_decBegin (startRefusal_of_accepts h')) (decAlike_decBegin h h')

/-- Like states of DEC hold the same `FAIL` and `OUT_LEN` and the same bytes below `OUT_LEN`; after a failure
the invariant has `OUT_LEN` 0. -/
theorem DecAlike.result {s s' : State} (hs : DecInv s) (h : DecAlike s s') :
    s.dec.fail = s'.dec.fail ∧ s.dec.outLen = s'.dec.outLen ∧
      ∀ i, i < s.dec.outLen → Memory.read s.decOut i = Memory.read s'.decOut i := by
  obtain ⟨⟨cap, code, hregs, _⟩, _, hout, hlen⟩ := h
  obtain ⟨hfail, _⟩ := hs
  refine ⟨by rw [hregs], by rw [hregs], fun i hi => ?_⟩
  cases hf : s.dec.fail with
  | false => exact (hout hf i (Nat.lt_of_lt_of_le hi hlen)).symm
  | true =>
    obtain ⟨_, hzero⟩ := hfail hf
    exact absurd (hzero ▸ hi) (Nat.not_lt_zero i)

/-- Settles O49: the two runs answer and end alike, and like states hold the same result. -/
theorem resultDependsOnlyOnTheInput : Obligations.ResultDependsOnlyOnTheInput := by
  unfold Obligations.ResultDependsOnlyOnTheInput
  intro s s' X cap cap'
  constructor
  · intro h h'
    obtain ⟨t, t', ht, ht', _, _, halike⟩ := exec_encode_alike h h'
    exact ⟨t, t', ht, ht', halike.result⟩
  · intro h h'
    obtain ⟨t, t', ht, ht', hinv, _, halike⟩ := exec_decode_alike h h'
    exact ⟨t, t', ht, ht', halike.result hinv⟩

end Sys2Proof.Machine
end

section
/-! The buffer spaces: the two primitives, the host's writes, and input that nobody wrote (20_memory.md R40,
R41, R45, R46). -/

namespace Sys2Proof.Machine

/-! ### One byte written (R40, R46) -/

theorem read_setSpace_write_same (s : State) (sp : Space) (i : Nat) (v : Byte) :
    Memory.read ((s.setSpace sp (Memory.write (s.space sp) i v)).space sp) i = some v := by
  rw [space_setSpace_same, read_write_same]

theorem read_setSpace_write_other (s : State) (sp : Space) {i j : Nat} (v : Byte) (h : j ≠ i) :
    Memory.read ((s.setSpace sp (Memory.write (s.space sp) i v)).space sp) j = Memory.read (s.space sp) j := by
  rw [space_setSpace_same, read_write_other _ v h]

theorem wf_setSpace_write {s : State} {sp : Space} (h : Memory.wf (s.space sp)) (i : Nat) (v : Byte) :
    Memory.wf ((s.setSpace sp (Memory.write (s.space sp) i v)).space sp) := by
  rw [space_setSpace_same]
  exact wf_write h i v

/-- Settles O9, by the law of `MemRead`. -/
theorem memReadGivesTheWrittenByte : Obligations.MemReadGivesTheWrittenByte := by
  unfold Obligations.MemReadGivesTheWrittenByte
  exact fun u i v s hi hv => memRead_of hi hv

/-- Settles O10: `MemWrite` answers the state with one byte written, whose reads and frame are laws. -/
theorem memWriteSetsOneByte : Obligations.MemWriteSetsOneByte := by
  unfold Obligations.MemWriteSetsOneByte
  intro u i v s hi
  exact ⟨_, memWrite_of v hi, read_setSpace_write_same s _ i v, fun j hj => read_setSpace_write_other s _ v hj,
    fun sp hsp => space_setSpace_other s hsp _, setSpace_enc s _ _, setSpace_dec s _ _, setSpace_turns s _ _,
    setSpace_draws s _ _, setSpace_maxLen s _ _, fun hwf => wf_setSpace_write hwf i v⟩

/-! ### Host writes (R40, R122) -/

theorem hostWrite_of_busy {sp : Space} {s : State} (h : s.phaseOf sp.owner = .busy) (i : Nat) (v : Byte) :
    hostWrite sp i v s = .refused .hostWriteWhileBusy := by
  rw [hostWrite, if_pos h]

theorem hostWrite_of_not_busy {sp : Space} {s : State} (h : s.phaseOf sp.owner ≠ .busy) (i : Nat) (v : Byte) :
    hostWrite sp i v s = .next (s.setSpace sp (Memory.write (s.space sp) i v)) := by
  rw [hostWrite, if_neg h]

/-- A host write in front is made on the state with its turn consumed. -/
theorem step_of_turns_write {s : State} {sp : Space} {i : Nat} {v : Byte} {ts : List Turn}
    (h : s.turns = .host (.write sp i v) :: ts) : step s = hostWrite sp i v (s.setTurns ts) :=
  step_of_turns_cons h

/-- Settles O35, by the two outcomes of a host write; consuming the turn changes no phase and no space. -/
theorem hostWriteNeedsAnIdleUnit : Obligations.HostWriteNeedsAnIdleUnit := by
  unfold Obligations.HostWriteNeedsAnIdleUnit
  intro s ts sp i v hts
  rw [step_of_turns_write hts, ← phaseOf_setTurns s ts]
  refine ⟨fun hb => hostWrite_of_busy hb i v, fun hb => ⟨_, hostWrite_of_not_busy hb i v, ?_⟩⟩
  simp only [← space_setTurns s ts]
  exact ⟨read_setSpace_write_same _ sp i v, fun j hj => read_setSpace_write_other _ sp v hj,
    fun sp' hsp => space_setSpace_other _ hsp _, setSpace_enc _ _ _, setSpace_dec _ _ _, setSpace_turns _ _ _,
    setSpace_draws _ _ _, setSpace_maxLen _ _ _⟩

/-! ### Input nobody wrote (R41) -/

theorem startRefusal_of_unwritten {u : UnitId} {len cap i : Nat} {s : State} (hi : i < len)
    (hlen : lengthOk s len = true) (hcap : neededCap u len ≤ cap)
    (hread : Memory.read (s.space (inSpace u)) i = none) :
    startRefusal u len cap s = some .inputNotWritten := by
  have hunwritten : Memory.allWritten (s.space (inSpace u)) len = false := by
    refine Bool.eq_false_iff.mpr fun hall => ?_
    have hsome := (allWritten_iff _ _).mp hall i hi
    rw [hread] at hsome
    cases hsome
  simp [startRefusal, hlen, Nat.not_lt.mpr hcap, hunwritten]

/-- A START that a precondition rules out is refused, whichever operation it would begin. -/
theorem onStart_of_refusal {u : UnitId} {len cap : Nat} {s : State} {r : Refusal}
    (h : startRefusal u len cap s = some r) (hb : s.phaseOf u ≠ .busy) (go : State → Result) :
    onStart u len cap go s = .refused r := by
  rw [onStart, if_neg hb, h]

/-! The START and the operation of a unit differ only in what they go on with once accepted. -/

theorem exec_encStart_eq (len cap : Nat) (s : State) :
    exec (.encStart len cap) s = onStart .enc len cap (fun t => .next (encBegin len cap t)) s := rfl

theorem exec_encode_eq (len cap : Nat) (s : State) :
    exec (.encode len cap) s = onStart .enc len cap (fun t => runUnit .enc (len + 1) (encBegin len cap t)) s := rfl

theorem exec_decStart_eq (len cap : Nat) (s : State) :
    exec (.decStart len cap) s = onStart .dec len cap (fun t => .next (decBegin len cap t)) s := rfl

theorem exec_decode_eq (len cap : Nat) (s : State) :
    exec (.decode len cap) s = onStart .dec len cap (fun t => runUnit .dec (len + 1) (decBegin len cap t)) s := rfl

/-- Settles O28: the refusal is that of `onStart`, which the START and the operation of a unit share. -/
theorem startOverUnwrittenInputIsRefused : Obligations.StartOverUnwrittenInputIsRefused := by
  unfold Obligations.StartOverUnwrittenInputIsRefused
  intro s len cap i hi hlen
  constructor
  · intro hb hcap hread
    have hrefusal := startRefusal_of_unwritten (u := .enc) hi hlen hcap hread
    rw [exec_encStart_eq, exec_encode_eq]
    exact ⟨onStart_of_refusal hrefusal hb _, onStart_of_refusal hrefusal hb _⟩
  · intro hb hcap hread
    have hrefusal := startRefusal_of_unwritten (u := .dec) hi hlen hcap hread
    rw [exec_decStart_eq, exec_decode_eq]
    exact ⟨onStart_of_refusal hrefusal hb _, onStart_of_refusal hrefusal hb _⟩

end Sys2Proof.Machine
end

section
/-! Under the invariants no unit stops, so no unit reads outside its input or writes outside its output
(20_memory.md R41, R47 to R50). -/

namespace Sys2Proof.Machine

/-- The turns are no part of the invariant. -/
theorem machineInv_setTurns {s : State} (h : MachineInv s) (ts : List Turn) : MachineInv (s.setTurns ts) := by
  obtain ⟨hmem, henc, hdec⟩ := h
  exact ⟨fun sp => by simpa using hmem sp, henc, hdec⟩

/-- A turn of either unit answers a next state: the unit has a step, or it is not BUSY and does nothing. -/
theorem unitTurn_answers {s : State} (hs : MachineInv s) (u : UnitId) : ∃ t, unitTurn u s = .next t := by
  obtain ⟨_, henc, hdec⟩ := hs
  by_cases hb : s.phaseOf u = .busy
  · rw [unitTurn_busy hb]
    cases u with
    | enc => exact unitStep_enc_answers henc hb
    | dec => exact unitStep_dec_answers hdec hb
  · exact ⟨s, unitTurn_not_busy hb⟩

theorem freeRun_answers {s : State} (hs : MachineInv s) : ∃ t, freeRun s = .next t := by
  unfold freeRun
  split
  · exact unitTurn_answers hs .enc
  · exact unitTurn_answers hs .dec

/-- A run answers, and keeps what lets every one of its steps answer: `runUnit_related` of a run with itself. -/
theorem runUnit_answers {u : UnitId} {P : State → Prop}
    (hstep : ∀ s, P s → s.phaseOf u = .busy → ∃ t, unitStep u s = .next t ∧ P t) (k : Nat) {s : State} (hs : P s) :
    ∃ t, runUnit u k s = .next t ∧ P t := by
  have hself : ∀ s s', s' = s ∧ P s → s.phaseOf u = .busy →
      ∃ t t', unitStep u s = .next t ∧ unitStep u s' = .next t' ∧ t' = t ∧ P t := by
    rintro _ s ⟨rfl, hs⟩ hb
    obtain ⟨t, ht, hP⟩ := hstep s hs hb
    exact ⟨t, t, ht, ht, rfl, hP⟩
  obtain ⟨t, _, ht, _, _, hP⟩ := runUnit_related (fun s s' h => by rw [h.1]) hself k ⟨rfl, hs⟩
  exact ⟨t, ht, hP⟩

theorem runUnit_enc_answers (k : Nat) {s : State} (hs : EncInv s) :
    ∃ t, runUnit .enc k s = .next t ∧ EncInv t := by
  refine runUnit_answers (fun s hs hb => ?_) k hs
  obtain ⟨t, ht⟩ := unitStep_enc_answers hs hb
  exact ⟨t, ht, encInv_unitStep hs ht⟩

theorem runUnit_dec_answers (k : Nat) {s : State} (hs : DecInv s) :
    ∃ t, runUnit .dec k s = .next t ∧ DecInv t := by
  refine runUnit_answers (fun s hs hb => ?_) k hs
  obtain ⟨t, ht⟩ := unitStep_dec_answers hs hb
  exact ⟨t, ht, decInv_unitStep hs ht⟩

/-- A START does not fault if what it begins answers whenever its preconditions hold. -/
theorem onStart_ne_fault {u : UnitId} {len cap : Nat} {go : State → Result} {s : State}
    (hgo : startRefusal u len cap s = none → ∃ t, go s = .next t) (f : Fault) :
    onStart u len cap go s ≠ .fault f := by
  obtain ⟨_, h⟩ | ⟨_, r, _, h⟩ | ⟨_, hnone, h⟩ := onStart_cases u len cap go s
  · rw [h]
    exact nofun
  · rw [h]
    exact nofun
  · obtain ⟨t, ht⟩ := hgo hnone
    rw [h, ht]
    exact nofun

theorem exec_encStart_ne_fault (len cap : Nat) (s : State) (f : Fault) :
    exec (.encStart len cap) s ≠ .fault f := by
  rw [exec_encStart_eq]
  refine onStart_ne_fault (fun _ => ?_) f
  exact ⟨_, rfl⟩

theorem exec_decStart_ne_fault (len cap : Nat) (s : State) (f : Fault) :
    exec (.decStart len cap) s ≠ .fault f := by
  rw [exec_decStart_eq]
  refine onStart_ne_fault (fun _ => ?_) f
  exact ⟨_, rfl⟩

theorem exec_encode_ne_fault (len cap : Nat) (s : State) (f : Fault) : exec (.encode len cap) s ≠ .fault f := by
  rw [exec_encode_eq]
  refine onStart_ne_fault (fun hnone => ?_) f
  obtain ⟨t, ht, _⟩ := runUnit_enc_answers (len + 1) (encInv_encBegin hnone)
  exact ⟨t, ht⟩

theorem exec_decode_ne_fault (len cap : Nat) (s : State) (f : Fault) : exec (.decode len cap) s ≠ .fault f := by
  rw [exec_decode_eq]
  refine onStart_ne_fault (fun hnone => ?_) f
  obtain ⟨t, ht, _⟩ := runUnit_dec_answers (len + 1) (decInv_decBegin hnone)
  exact ⟨t, ht⟩

/-- No host move faults, from any state: START establishes the invariant that its operation needs. -/
theorem hostMove_ne_fault (m : HostMove) (s : State) (f : Fault) : hostMove m s ≠ .fault f := by
  cases m with
  | start u len cap =>
    cases u with
    | enc => exact exec_encStart_ne_fault len cap s f
    | dec => exact exec_decStart_ne_fault len cap s f
  | operate u len cap =>
    cases u with
    | enc => exact exec_encode_ne_fault len cap s f
    | dec => exact exec_decode_ne_fault len cap s f
  | write sp i v =>
    by_cases hb : s.phaseOf sp.owner = .busy
    · rw [hostMove, hostWrite_of_busy hb]
      exact nofun
    · rw [hostMove, hostWrite_of_not_busy hb]
      exact nofun
  | reset => exact nofun

/-- From the invariant a step answers, or a host move is in front and does not fault. -/
theorem step_answers_or_host {s : State} (hs : MachineInv s) :
    (∃ t, step s = .next t) ∨ (HostTurnNext s ∧ ∀ f, step s ≠ .fault f) := by
  cases hts : s.turns with
  | nil =>
    rw [step, hts]
    exact .inl (freeRun_answers hs)
  | cons x ts =>
    rw [step_of_turns_cons hts]
    cases x with
    | unit u => exact .inl (unitTurn_answers (machineInv_setTurns hs ts) u)
    | host m => exact .inr ⟨⟨m, ts, hts⟩, hostMove_ne_fault m _⟩

/-- Settles O39: a step that answers neither faults nor is refused. -/
theorem invariantRulesOutUnitStops : Obligations.InvariantRulesOutUnitStops := by
  unfold Obligations.InvariantRulesOutUnitStops
  intro s hs
  obtain ⟨t, ht⟩ | ⟨hhost, hfault⟩ := step_answers_or_host hs
  · rw [ht]
    exact ⟨nofun, nofun⟩
  · exact ⟨hfault, fun _ _ => hhost⟩

end Sys2Proof.Machine
end

section
/-! Where the steps of DEC write (20_memory.md R50, 41_decoder.md R105 J3). -/

namespace Sys2Proof.Machine

/-! ### Spaces that agree from an index on -/

theorem Memory.AgreeFrom.refl (n : Nat) (m : Memory) : Memory.AgreeFrom n m m := fun _ _ => rfl

theorem Memory.AgreeFrom.trans {n : Nat} {a b c : Memory} (hab : Memory.AgreeFrom n a b)
    (hbc : Memory.AgreeFrom n b c) : Memory.AgreeFrom n a c :=
  fun i hi => (hbc i hi).trans (hab i hi)

theorem agreeFrom_write {n j : Nat} (h : j < n) (m : Memory) (v : Byte) :
    Memory.AgreeFrom n m (Memory.write m j v) :=
  fun _ hi => read_write_other m v (Nat.ne_of_gt (Nat.lt_of_lt_of_le h hi))

theorem agreeFrom_fill (m : Memory) (n : Nat) (f : Nat → Byte) : Memory.AgreeFrom n m (Memory.fill m n f) := by
  intro i hi
  rw [read_fill, if_neg (Nat.not_lt.mpr hi)]

/-! ### The steps of DEC -/

/-- DEC gets from `s` to `t` with no write at or above `IN_LEN - 1` and ends with `wr <= rd`. -/
def DecWritesBelow (s t : State) : Prop :=
  Memory.AgreeFrom (s.dec.inLen - 1) s.decOut t.decOut ∧ t.dec.wr ≤ t.dec.rd

/-- A failure voids no more than the writable range and leaves the indices where they are. -/
theorem decWritesBelow_raiseMalformed (c : Cause) {s : State} (hwr : s.dec.wr ≤ s.dec.rd) :
    DecWritesBelow s (raiseMalformed c s) := by
  refine ⟨?_, hwr⟩
  rw [raiseMalformed_decOut]
  exact agreeFrom_fill _ _ _

theorem decWritesBelow_openBlock (n : Byte) {s : State} (hwr : s.dec.wr ≤ s.dec.rd) :
    DecWritesBelow s (openBlock n s) := by
  rw [openBlock_eq]
  split
  · exact decWritesBelow_raiseMalformed _ hwr
  · exact ⟨Memory.AgreeFrom.refl _ _, Nat.le_succ_of_le hwr⟩

/-- The implied zero is written only where input is left, and `wr` is one behind `rd` there. -/
theorem decWritesBelow_blockEnd {s t : State} (hwr : s.dec.wr + 1 ≤ s.dec.rd) (hrd : s.dec.rd ≤ s.dec.inLen)
    (h : blockEnd s = .next t) : DecWritesBelow s t := by
  obtain ⟨⟨_, hleft⟩, _, rfl⟩ | ⟨_, rfl⟩ := blockEnd_eq_next.mp h
  · have hbelow : s.dec.wr < s.dec.inLen - 1 := by omega
    exact ⟨agreeFrom_write hbelow _ _, hwr⟩
  · exact ⟨Memory.AgreeFrom.refl _ _, Nat.le_of_succ_le hwr⟩

theorem decWritesBelow_copied (b : Byte) {s : State} (hwr : s.dec.wr + 1 ≤ s.dec.rd)
    (hrd : s.dec.rd < s.dec.inLen) : DecWritesBelow s (copied b s) := by
  have hbelow : s.dec.wr < s.dec.inLen - 1 := by omega
  exact ⟨agreeFrom_write hbelow _ _, Nat.le_succ_of_le hwr⟩

theorem decWritesBelow_execBlkEmpty {s t : State} (hwr : s.dec.wr ≤ s.dec.rd) (h : execBlkEmpty s = .next t) :
    DecWritesBelow s t := by
  obtain ⟨hready, hend⟩ := blockEnd_of_execBlkEmpty h
  obtain ⟨_, _, hlt, _⟩ := decHdrReady_iff.mp hready
  exact decWritesBelow_blockEnd (s := takeHeader 0x01#8 s) (Nat.succ_le_succ hwr) hlt hend

theorem decWritesBelow_execDecData {s t : State} (hwr : s.dec.st = .data → s.dec.wr + 1 ≤ s.dec.rd)
    (h : execDecData s = .next t) : DecWritesBelow s t := by
  obtain ⟨⟨_, hst, _⟩, b, ⟨hlt, _⟩, hcases⟩ := execDecData_eq_next.mp h
  obtain ⟨_, rfl⟩ | ⟨_, _, ⟨_, hend⟩ | ⟨_, rfl⟩⟩ := hcases
  · exact decWritesBelow_raiseMalformed _ (Nat.le_of_succ_le (hwr hst))
  · obtain ⟨hcopy, _⟩ := decWritesBelow_copied b (hwr hst) hlt
    obtain ⟨hzero, hle⟩ := decWritesBelow_blockEnd (s := copied b s) (Nat.succ_le_succ (hwr hst)) hlt hend
    exact ⟨hcopy.trans hzero, hle⟩
  · exact decWritesBelow_copied b (hwr hst) hlt

theorem decWritesBelow_unitStep {s t : State} (hs : DecInv s) (hb : s.dec.phase = .busy)
    (h : unitStep .dec s = .next t) : DecWritesBelow s t := by
  obtain ⟨_, hbusy⟩ := hs
  obtain ⟨_, hwr, _, _, hdata, _⟩ := hbusy hb
  obtain h | h | ⟨n, h⟩ | h | h | h := unitStep_dec_cases h
  · obtain ⟨_, rfl⟩ := execBlkIllegal_eq_next.mp h
    exact decWritesBelow_raiseMalformed _ hwr
  · exact decWritesBelow_execBlkEmpty hwr h
  · obtain ⟨_, _, rfl⟩ := execBlkShort_eq_next.mp h
    exact decWritesBelow_openBlock n hwr
  · obtain ⟨_, rfl⟩ := execBlkFull_eq_next.mp h
    exact decWritesBelow_openBlock _ hwr
  · refine decWritesBelow_execDecData (fun hst => ?_) h
    obtain ⟨_, _, _, hwr1, _⟩ := hdata hst
    exact hwr1
  · obtain ⟨_, rfl⟩ := execDecFinish_eq_next.mp h
    exact ⟨Memory.AgreeFrom.refl _ _, hwr⟩

/-- Settles O41: the instruction that DEC selects is its unit step, and each of those writes below
`IN_LEN - 1`. -/
theorem decStepsWriteBelowInputLength : Obligations.DecStepsWriteBelowInputLength := by
  unfold Obligations.DecStepsWriteBelowInputLength
  intro s t i hs hi ht
  obtain ⟨hb, _⟩ := selectDec_eq_next.mp hi
  have hsel : selectStep .dec s = .next i := hi
  rw [exec_of_select hsel s] at ht
  exact decWritesBelow_unitStep hs hb (unitStep_of_select hsel ht)

end Sys2Proof.Machine
end

section
/-! The encoding tables: the length-byte map, the raw-byte classes, and the opcode table's first-match rule
(30_encoding.md R66, R73, R76). -/

namespace Sys2Proof.Machine

/-! ### The length-byte map (R66) -/

/-- Settles O5: the ranges of the four clauses are those of `decodeLengthByte_cases`. -/
theorem lengthByteMapIsComplete : Obligations.LengthByteMapIsComplete := by
  unfold Obligations.LengthByteMapIsComplete
  intro n
  have hmap : decode (.lengthByte n) = .ok (decodeLengthByte n) := rfl
  rw [hmap]
  obtain ⟨rfl, hrow⟩ | ⟨rfl, hrow⟩ | ⟨rfl, hrow⟩ | ⟨hn, hrow⟩ := decodeLengthByte_cases n <;> rw [hrow]
  · simp
  · simp
  · simp
  · refine ⟨fun h => ?_, fun h => ?_, fun _ _ => rfl, fun h => ?_⟩ <;> omega

theorem decodeLengthByte_of_isShortCode {n : Byte} (h : isShortCode n = true) :
    decodeLengthByte n = .blkShort n := by
  obtain ⟨hlo, hhi⟩ := isShortCode_iff.mp h
  obtain ⟨rfl, _⟩ | ⟨rfl, _⟩ | ⟨rfl, _⟩ | ⟨_, hrow⟩ := decodeLengthByte_cases n
  · simp at hlo
  · simp at hlo
  · simp at hhi
  · exact hrow

/-! ### The raw-byte classes (R73) -/

@[simp] theorem decodeRawByte_zero (cnt : Byte) : decodeRawByte cnt 0x00#8 = .ok .encZero := if_pos rfl

theorem decodeRawByte_of_le {cnt b : Byte} (hb : b ≠ 0x00#8) (hcnt : cnt.toNat ≤ 253) :
    decodeRawByte cnt b = .ok (.encData b) := by
  rw [decodeRawByte, if_neg hb, if_pos hcnt]

theorem decodeRawByte_of_eq {cnt b : Byte} (hb : b ≠ 0x00#8) (hcnt : cnt.toNat = 254) :
    decodeRawByte cnt b = .ok (.encCap b) := by
  rw [decodeRawByte, if_neg hb, if_neg (by omega), if_pos hcnt]

theorem decodeRawByte_of_gt {cnt b : Byte} (hb : b ≠ 0x00#8) (hcnt : 254 < cnt.toNat) :
    decodeRawByte cnt b = .error .counterOutOfRange := by
  rw [decodeRawByte, if_neg hb, if_neg (by omega), if_neg (by omega)]

/-- Settles O6: one equation of `decodeRawByte` per clause. -/
theorem rawByteClassesAreComplete : Obligations.RawByteClassesAreComplete := by
  unfold Obligations.RawByteClassesAreComplete
  intro cnt b
  refine ⟨?_, decodeRawByte_of_le, decodeRawByte_of_eq, decodeRawByte_of_gt⟩
  rintro rfl
  exact decodeRawByte_zero cnt

/-- Settles O4: literal words, which the two maps decode by computation. -/
theorem sampleWordsDecodeToTheirRows : Obligations.SampleWordsDecodeToTheirRows := by
  unfold Obligations.SampleWordsDecodeToTheirRows
  decide

/-- Settles O7: the rows without an operand and those of a command or an event decode by computation; the rest
is the equation of the row's own class, whose side condition is the well-formedness of the operand. -/
theorem decodeInvertsEncode : Obligations.DecodeInvertsEncode := by
  unfold Obligations.DecodeInvertsEncode
  intro i hw
  cases i with
  | blkShort n => exact congrArg Except.ok (decodeLengthByte_of_isShortCode hw)
  | encData b => exact decodeRawByte_of_le (isDataByte_iff.mp hw) (by decide)
  | encCap b => exact decodeRawByte_of_eq (isDataByte_iff.mp hw) (by decide)
  | _ => rfl

/-! ### The opcode table's first-match rule (R76) -/

@[simp] theorem firstRow_nil (cnt b : Byte) : firstRow [] cnt b = none := rfl

theorem firstRow_cons (r : Row) (rs : List Row) (cnt b : Byte) :
    firstRow (r :: rs) cnt b = if r.selects cnt b then some r.mnemonic else firstRow rs cnt b := by
  unfold firstRow
  rw [List.find?_cons]
  cases r.selects cnt b <;> rfl

/-- A row whose mask is 0xFF and that asks nothing of the counter selects its own value alone. -/
theorem selects_one_value_iff {cnt b p : Byte} {m : String} {f : RowFormat} {w : Nat} :
    Row.selects ⟨m, f, w, p, 0xFF#8, 0, 255⟩ cnt b = true ↔ b = p := by
  have hmask : b &&& 0xFF#8 = b := BitVec.and_allOnes
  have hcnt : cnt.toNat ≤ 255 := Nat.le_of_lt_succ cnt.isLt
  simp [Row.selects, hmask, hcnt]

/-- A row whose mask is 0 takes any byte: only the counter decides. -/
theorem selects_any_value_iff {cnt b : Byte} {m : String} {f : RowFormat} {w lo hi : Nat} :
    Row.selects ⟨m, f, w, 0x00#8, 0x00#8, lo, hi⟩ cnt b = true ↔ lo ≤ cnt.toNat ∧ cnt.toNat ≤ hi := by
  simp [Row.selects]

/-- The `length_byte` rows, tried in ascending priority. -/
theorem firstRow_lengthByteRows (cnt n : Byte) :
    firstRow lengthByteRows cnt n =
      if n = 0x00#8 then some "BLK.ILLEGAL" else if n = 0x01#8 then some "BLK.EMPTY"
      else if n = 0xFF#8 then some "BLK.FULL" else some "BLK.SHORT" := by
  have hcnt : 0 ≤ cnt.toNat ∧ cnt.toNat ≤ 255 := ⟨Nat.zero_le _, Nat.le_of_lt_succ cnt.isLt⟩
  simp only [lengthByteRows, firstRow_cons, selects_one_value_iff, selects_any_value_iff, if_pos hcnt,
    BitVec.ofNat_eq_ofNat]

/-- The `raw_byte` rows, tried in ascending priority. -/
theorem firstRow_rawByteRows (cnt b : Byte) :
    firstRow rawByteRows cnt b =
      if b = 0x00#8 then some "ENC.ZERO" else if cnt.toNat ≤ 253 then some "ENC.DATA"
      else if cnt.toNat = 254 then some "ENC.CAP" else none := by
  have hcap : 254 ≤ cnt.toNat ∧ cnt.toNat ≤ 254 ↔ cnt.toNat = 254 := by omega
  simp only [rawByteRows, firstRow_cons, firstRow_nil, selects_one_value_iff, selects_any_value_iff, Nat.zero_le,
    true_and, hcap, BitVec.ofNat_eq_ofNat]

/-- The length byte's row is the decoder's, whatever the counter. -/
theorem firstRow_lengthByteRows_eq_decode (cnt n : Byte) :
    firstRow lengthByteRows cnt n = some (decodeLengthByte n).mnemonic := by
  rw [firstRow_lengthByteRows]
  obtain ⟨rfl, hrow⟩ | ⟨rfl, hrow⟩ | ⟨rfl, hrow⟩ | ⟨hn, hrow⟩ := decodeLengthByte_cases n <;> rw [hrow]
  · rfl
  · rfl
  · rfl
  · rw [if_neg (by bv_omega), if_neg (by bv_omega), if_neg (by bv_omega)]
    rfl

/-- Where the raw byte decodes, the first row that selects it is the decoded instruction's. -/
theorem firstRow_rawByteRows_of_ok {cnt b : Byte} {i : Instr} (h : decodeRawByte cnt b = .ok i) :
    firstRow rawByteRows cnt b = some i.mnemonic ∧ i.wellFormed = true := by
  rw [firstRow_rawByteRows]
  obtain ⟨rfl, rfl⟩ | ⟨hb, hcnt, rfl⟩ | ⟨hb, hcnt, rfl⟩ :=
    decoded_rawByte_eq_next.mp (by rw [decoded, decode, h])
  · exact ⟨rfl, rfl⟩
  · exact ⟨by rw [if_neg hb, if_pos hcnt]; rfl, isDataByte_iff.mpr hb⟩
  · exact ⟨by rw [if_neg hb, if_neg (by omega), if_pos hcnt]; rfl, isDataByte_iff.mpr hb⟩

/-- Where the decoder refuses the raw byte, no row selects it. -/
theorem firstRow_rawByteRows_of_error {cnt b : Byte} {e : DecodeError} (h : decodeRawByte cnt b = .error e) :
    firstRow rawByteRows cnt b = none := by
  have hb : b ≠ 0x00#8 := by
    rintro rfl
    simp at h
  have hle : ¬cnt.toNat ≤ 253 := fun hcnt => by simp [decodeRawByte_of_le hb hcnt] at h
  have heq : cnt.toNat ≠ 254 := fun hcnt => by simp [decodeRawByte_of_eq hb hcnt] at h
  rw [firstRow_rawByteRows, if_neg hb, if_neg hle, if_neg heq]

/-- Settles O8: each table's first match, read off its rows, has the branches of the decoder. -/
theorem decoderTakesFirstMatchingRow : Obligations.DecoderTakesFirstMatchingRow := by
  unfold Obligations.DecoderTakesFirstMatchingRow
  exact ⟨firstRow_lengthByteRows_eq_decode, fun _ _ =>
    ⟨fun _ => firstRow_rawByteRows_of_ok, fun _ => firstRow_rawByteRows_of_error⟩⟩

end Sys2Proof.Machine
end

section
/-! The frames ENC produces and the frames DEC accepts, block by block (30_encoding.md R65, R72, R74). -/

namespace Sys2Proof.Machine

/-! ### The runs of a raw buffer, block by block (R87) -/

theorem zeroRuns_ne_nil (X : List Byte) : zeroRuns X ≠ [] := by
  cases X with
  | nil => simp [zeroRuns]
  | cons b X =>
    unfold zeroRuns
    split
    · simp
    · split <;> simp

theorem zeroRuns_zero_cons (X : List Byte) : zeroRuns (0x00#8 :: X) = [] :: zeroRuns X := if_pos rfl

theorem zeroRuns_cons {b : Byte} (hb : b ≠ 0x00#8) {X r : List Byte} {rs : List (List Byte)}
    (hX : zeroRuns X = r :: rs) : zeroRuns (b :: X) = (b :: r) :: rs := by
  rw [zeroRuns, if_neg hb, hX]

/-- Zero-free bytes before a buffer lengthen its first run. -/
theorem zeroRuns_append {d X r : List Byte} {rs : List (List Byte)} (hd : 0x00#8 ∉ d)
    (hX : zeroRuns X = r :: rs) : zeroRuns (d ++ X) = (d ++ r) :: rs := by
  induction d with
  | nil => exact hX
  | cons b d ih =>
    obtain ⟨hb, hd⟩ := not_or.mp (mt List.mem_cons.mpr hd)
    exact zeroRuns_cons (Ne.symm hb) (ih hd)

/-- Only the empty buffer is a single empty run. -/
theorem eq_nil_of_zeroRuns {X : List Byte} (h : zeroRuns X = [[]]) : X = [] := by
  cases X with
  | nil => rfl
  | cons b X =>
    exfalso
    obtain ⟨r, rs, hX⟩ := List.exists_cons_of_ne_nil (zeroRuns_ne_nil X)
    by_cases hb : b = 0x00#8
    · subst hb
      simp [zeroRuns_zero_cons, zeroRuns_ne_nil] at h
    · simp [zeroRuns_cons hb hX] at h

/-! ### The frame of a run (R89) -/

theorem encRun_of_lt (last : Bool) (fuel : Nat) {r : List Byte} (h : r.length < 254) :
    encRun last fuel r = BitVec.ofNat 8 (r.length + 1) :: r := by
  cases fuel with
  | zero => rfl
  | succ fuel => rw [encRun, if_neg (by omega)]

theorem encRun_append (last : Bool) (fuel : Nat) {d r : List Byte} (hd : d.length = 254) :
    encRun last (fuel + 1) (d ++ r) = 0xFF#8 :: (d ++ if last && r.isEmpty then [] else encRun last fuel r) := by
  have hlast : ((d ++ r).length == 254) = r.isEmpty := by
    cases r <;> simp [hd]
  rw [encRun, if_pos (by simp [hd]), List.take_left' hd, List.drop_left' hd, hlast]

/-- Fuel beyond the number of full blocks changes nothing. -/
theorem encRun_fuel (last : Bool) {fuel fuel' : Nat} {r : List Byte} (h : r.length ≤ fuel) (h' : r.length ≤ fuel') :
    encRun last fuel r = encRun last fuel' r := by
  induction fuel generalizing fuel' r with
  | zero => rw [encRun_of_lt _ _ (by omega), encRun_of_lt _ _ (by omega)]
  | succ fuel ih =>
    by_cases hr : r.length < 254
    · rw [encRun_of_lt _ _ hr, encRun_of_lt _ _ hr]
    · obtain ⟨k, rfl⟩ : ∃ k, fuel' = k + 1 := ⟨fuel' - 1, by omega⟩
      have hlen : (r.drop 254).length = r.length - 254 := List.length_drop
      have hdrop := ih (fuel' := k) (r := r.drop 254) (by omega) (by omega)
      rw [encRun, encRun, hdrop]

theorem encRuns_cons (r : List Byte) (rs : List (List Byte)) :
    encRuns (r :: rs) = encRun rs.isEmpty r.length r ++ encRuns rs := by
  cases rs with
  | nil => simp [encRuns]
  | cons s rs => rfl

/-! ### The frame of a buffer, block by block -/

/-- A block of the wire format (R65): the length byte counts itself and its data bytes, and no data byte is
zero. -/
def IsBlock (n : Byte) (d : List Byte) : Prop := d.length + 1 = n.toNat ∧ 0x00#8 ∉ d

theorem IsBlock.eq_ofNat {n : Byte} {d : List Byte} (h : IsBlock n d) : BitVec.ofNat 8 (d.length + 1) = n := by
  rw [h.1, BitVec.ofNat_toNat, BitVec.setWidth_eq]

theorem IsBlock.ne_zero {n : Byte} {d : List Byte} (h : IsBlock n d) : n ≠ 0x00#8 := by
  rintro rfl
  exact absurd h.1 (by simp)

theorem IsBlock.dataLength {n : Byte} {d : List Byte} (h : IsBlock n d) : n.toNat - 1 = d.length := by
  rw [← h.1, Nat.add_sub_cancel]

theorem IsBlock.length_full {d : List Byte} (h : IsBlock 0xFF#8 d) : d.length = 254 :=
  Nat.succ_injective h.1

theorem IsBlock.length_lt {n : Byte} {d : List Byte} (h : IsBlock n d) (hn : n ≠ 0xFF#8) : d.length < 254 := by
  have hlen := h.1
  bv_omega

/-- A zero-free buffer that fits one block has that block as its frame. -/
theorem enc_final {n : Byte} {d : List Byte} (h : IsBlock n d) : enc d = n :: d := by
  have hruns : zeroRuns d = [d] := by
    simpa using zeroRuns_append (X := []) h.2 rfl
  have henc : enc d = encRun true d.length d := by
    rw [enc, hruns, encRuns]
  rw [henc]
  by_cases hn : n = 0xFF#8
  · subst hn
    rw [h.length_full]
    simpa using encRun_append true 253 (r := []) h.length_full
  · rw [encRun_of_lt _ _ (h.length_lt hn), h.eq_ofNat]

/-- A block that is not full carries the zero after it. -/
theorem enc_short {n : Byte} {d : List Byte} (h : IsBlock n d) (hn : n ≠ 0xFF#8) (X : List Byte) :
    enc (d ++ 0x00#8 :: X) = n :: (d ++ enc X) := by
  have hruns : zeroRuns (d ++ 0x00#8 :: X) = d :: zeroRuns X := by
    simpa using zeroRuns_append h.2 (zeroRuns_zero_cons X)
  rw [enc, hruns, encRuns_cons, encRun_of_lt _ _ (h.length_lt hn), h.eq_ofNat]
  rfl

/-- A full block carries no zero: the buffer goes on in the next block. -/
theorem enc_full {d X : List Byte} (h : IsBlock 0xFF#8 d) (hX : X ≠ []) :
    enc (d ++ X) = 0xFF#8 :: (d ++ enc X) := by
  obtain ⟨r, rs, hruns⟩ := List.exists_cons_of_ne_nil (zeroRuns_ne_nil X)
  have hlast : ¬(rs.isEmpty && r.isEmpty) = true := by
    simp only [Bool.and_eq_true, List.isEmpty_iff]
    rintro ⟨rfl, rfl⟩
    exact hX (eq_nil_of_zeroRuns hruns)
  rw [enc, zeroRuns_append h.2 hruns, encRuns_cons, List.length_append, h.length_full,
    show 254 + r.length = (253 + r.length) + 1 by omega, encRun_append _ _ h.length_full, if_neg hlast,
    encRun_fuel rs.isEmpty (Nat.le_add_left _ _) le_rfl, enc, hruns, encRuns_cons]
  simp

/-! ### The frames DEC accepts, block by block -/

/-- `WireFrame E X codes`: the bytes `E` are whole blocks with the length bytes `codes`, and stand for the raw
bytes `X`, where every block but the last and the full ones carries a zero after its data (R65). -/
inductive WireFrame : List Byte → List Byte → List Byte → Prop
  | final {n : Byte} {d : List Byte} : IsBlock n d → WireFrame (n :: d) d [n]
  | full {d E X codes : List Byte} : IsBlock 0xFF#8 d → WireFrame E X codes →
      WireFrame (0xFF#8 :: (d ++ E)) (d ++ X) (0xFF#8 :: codes)
  | short {n : Byte} {d E X codes : List Byte} : IsBlock n d → n ≠ 0xFF#8 → WireFrame E X codes →
      WireFrame (n :: (d ++ E)) (d ++ 0x00#8 :: X) (n :: codes)

theorem WireFrame.ne_nil {E X codes : List Byte} (h : WireFrame E X codes) : E ≠ [] := by
  cases h <;> exact List.cons_ne_nil _ _

theorem WireFrame.codes_ne_nil {E X codes : List Byte} (h : WireFrame E X codes) : codes ≠ [] := by
  cases h <;> exact List.cons_ne_nil _ _

/-- What one turn of `decBlocks` does with a frame that starts with a block. -/
theorem decBlocks_block {n : Byte} {d : List Byte} (h : IsBlock n d) (fuel : Nat) (E : List Byte) :
    decBlocks (fuel + 1) (n :: (d ++ E)) =
      if E = [] then some d
      else if n = 0xFF#8 then (decBlocks fuel E).map (d ++ ·)
      else (decBlocks fuel E).map (d ++ 0x00#8 :: ·) := by
  have hover : ¬(d ++ E).length < d.length := by simp
  simp only [decBlocks, h.dataLength, if_neg h.ne_zero, if_neg hover, List.take_left, List.drop_left, if_neg h.2]

theorem walkCodes_block {n : Byte} {d : List Byte} (h : IsBlock n d) (fuel : Nat) (E : List Byte) :
    walkCodes (fuel + 1) (n :: (d ++ E)) = (walkCodes fuel E).map (n :: ·) := by
  have hover : ¬(d ++ E).length < d.length := by simp
  rw [walkCodes, h.dataLength, if_neg h.ne_zero, if_neg hover, List.drop_left]

/-- `dec` and the walk of R72 compute what a frame stands for, and its length bytes. -/
theorem WireFrame.decBlocks_walkCodes {E X codes : List Byte} (h : WireFrame E X codes) {fuel : Nat}
    (hf : E.length ≤ fuel) : decBlocks fuel E = some X ∧ walkCodes fuel E = some codes := by
  induction h generalizing fuel with
  | @final n d hb =>
    rw [List.length_cons] at hf
    obtain ⟨k, rfl⟩ : ∃ k, fuel = k + 1 := ⟨fuel - 1, by omega⟩
    rw [← List.append_nil d, decBlocks_block hb, walkCodes_block hb]
    simp [walkCodes]
  | @full d E X codes hb hE ih =>
    simp only [List.length_cons, List.length_append] at hf
    obtain ⟨k, rfl⟩ : ∃ k, fuel = k + 1 := ⟨fuel - 1, by omega⟩
    obtain ⟨hdec, hwalk⟩ := ih (fuel := k) (by omega)
    rw [decBlocks_block hb, walkCodes_block hb, if_neg hE.ne_nil, if_pos rfl, hdec, hwalk]
    exact ⟨rfl, rfl⟩
  | @short n d E X codes hb hn hE ih =>
    simp only [List.length_cons, List.length_append] at hf
    obtain ⟨k, rfl⟩ : ∃ k, fuel = k + 1 := ⟨fuel - 1, by omega⟩
    obtain ⟨hdec, hwalk⟩ := ih (fuel := k) (by omega)
    rw [decBlocks_block hb, walkCodes_block hb, if_neg hE.ne_nil, if_neg hn, hdec, hwalk]
    exact ⟨rfl, rfl⟩

/-- Where `decBlocks` answers, its input starts with a block. -/
theorem exists_block_of_decBlocks {fuel : Nat} {E X : List Byte} (h : decBlocks fuel E = some X) :
    ∃ n d E', E = n :: (d ++ E') ∧ IsBlock n d := by
  unfold decBlocks at h
  split at h
  · cases h
  · cases h
  · rename_i n rest
    dsimp only at h
    split_ifs at h with hn hover hzero
    all_goals
      have hpos : n.toNat ≠ 0 := fun h0 => hn (by bv_omega)
      exact ⟨n, _, _, by rw [List.take_append_drop], by rw [List.length_take]; omega, hzero⟩

theorem frame_of_decBlocks {fuel : Nat} {E X : List Byte} (h : decBlocks fuel E = some X) :
    ∃ codes, WireFrame E X codes := by
  induction fuel generalizing E X with
  | zero => cases h
  | succ fuel ih =>
    obtain ⟨n, d, E, rfl, hb⟩ := exists_block_of_decBlocks h
    rw [decBlocks_block hb] at h
    split_ifs at h with hE hn
    · obtain rfl : d = X := Option.some.inj h
      exact ⟨[n], by simpa [hE] using WireFrame.final hb⟩
    · obtain ⟨X, hX, rfl⟩ := Option.map_eq_some_iff.mp h
      obtain ⟨codes, hcodes⟩ := ih hX
      subst hn
      exact ⟨_, .full hb hcodes⟩
    · obtain ⟨X, hX, rfl⟩ := Option.map_eq_some_iff.mp h
      obtain ⟨codes, hcodes⟩ := ih hX
      exact ⟨_, .short hb hn hcodes⟩

/-- DEC accepts exactly the frames (R106). -/
theorem dec_eq_some_iff {E X : List Byte} : dec E = some X ↔ ∃ codes, WireFrame E X codes :=
  ⟨frame_of_decBlocks, fun ⟨_, h⟩ => (h.decBlocks_walkCodes le_rfl).1⟩

theorem WireFrame.frameCodes {E X codes : List Byte} (h : WireFrame E X codes) : frameCodes E = some codes :=
  (h.decBlocks_walkCodes le_rfl).2

/-- The frame of the empty buffer is the empty block alone. -/
theorem WireFrame.eq_of_nil {E codes : List Byte} (h : WireFrame E [] codes) : E = [0x01#8] ∧ codes = [0x01#8] := by
  generalize hX : ([] : List Byte) = X at h
  cases h with
  | final hb =>
    subst hX
    obtain rfl := hb.eq_ofNat
    exact ⟨rfl, rfl⟩
  | full hb =>
    obtain ⟨rfl, _⟩ := List.append_eq_nil_iff.mp hX.symm
    cases hb.length_full
  | short => simp at hX

/-! ### Canonical frames (R74) -/

/-- A frame that ends in a full block is the one ENC produces. -/
theorem WireFrame.enc_eq_of_last_full {E X codes : List Byte} (h : WireFrame E X codes)
    (hlast : codes.getLast? = some 0xFF#8) : enc X = E := by
  induction h with
  | final hb => exact enc_final hb
  | @full d E X codes hb hE ih =>
    rw [List.getLast?_cons_of_ne_nil hE.codes_ne_nil] at hlast
    have hX : X ≠ [] := by
      rintro rfl
      rw [hE.eq_of_nil.2] at hlast
      cases hlast
    rw [enc_full hb hX, ih hlast]
  | @short n d E X codes hb hn hE ih =>
    rw [List.getLast?_cons_of_ne_nil hE.codes_ne_nil] at hlast
    rw [enc_short hb hn, ih hlast]

/-- `F` is a frame of `X` that ends in a full block, with an empty block behind it. -/
def FullThenEmpty (F X : List Byte) : Prop :=
  ∃ E codes, F = E ++ [0x01#8] ∧ WireFrame E X codes ∧ codes.getLast? = some 0xFF#8

/-- A block before a frame keeps it canonical, or keeps it a full block's frame with the empty block behind;
only a full block right before the empty frame turns the one into the other. -/
theorem WireFrame.canonical_or_fullThenEmpty {F X codes : List Byte} (h : WireFrame F X codes) :
    enc X = F ∨ FullThenEmpty F X := by
  induction h with
  | final hb => exact .inl (enc_final hb)
  | @full d F X codes hb hF ih =>
    by_cases hX : X = []
    · subst hX
      rw [hF.eq_of_nil.1]
      exact .inr ⟨0xFF#8 :: d, [0xFF#8], rfl, by simpa using WireFrame.final hb, rfl⟩
    · obtain henc | ⟨E, codes, rfl, hE, hlast⟩ := ih
      · exact .inl (by rw [enc_full hb hX, henc])
      · exact .inr ⟨0xFF#8 :: (d ++ E), 0xFF#8 :: codes, by simp, .full hb hE,
          by rwa [List.getLast?_cons_of_ne_nil hE.codes_ne_nil]⟩
  | @short n d F X codes hb hn hF ih =>
    obtain henc | ⟨E, codes, rfl, hE, hlast⟩ := ih
    · exact .inl (by rw [enc_short hb hn, henc])
    · exact .inr ⟨n :: (d ++ E), n :: codes, by simp, .short hb hn hE,
        by rwa [List.getLast?_cons_of_ne_nil hE.codes_ne_nil]⟩

/-- Settles O55: an accepted frame is ENC's or ends in a full block with the empty block behind; not both, since
without the empty block it is ENC's already. -/
theorem nonCanonicalFramesEndInAnEmptyBlock : Obligations.NonCanonicalFramesEndInAnEmptyBlock := by
  unfold Obligations.NonCanonicalFramesEndInAnEmptyBlock
  intro F X hF
  obtain ⟨_, hframe⟩ := dec_eq_some_iff.mp hF
  constructor
  · intro hne
    obtain ⟨E, codes, hE, hfr, hlast⟩ := hframe.canonical_or_fullThenEmpty.resolve_left hne
    exact ⟨E, codes, hE, dec_eq_some_iff.mpr ⟨codes, hfr⟩, hfr.frameCodes, hlast⟩
  · rintro ⟨E, codes, rfl, hE, hcodes, hlast⟩ henc
    obtain ⟨codes', hfr⟩ := dec_eq_some_iff.mp hE
    obtain rfl : codes' = codes := Option.some.inj (hfr.frameCodes.symm.trans hcodes)
    have hshort : enc X = E := hfr.enc_eq_of_last_full hlast
    simpa using hshort.symm.trans henc

end Sys2Proof.Machine
end

section
/-! The steps of ENC, one by one, and the turns that run them (40_encoder.md R79 to R85). -/

namespace Sys2Proof.Machine

/-! ### What each step answers -/

/-- Settles O11: an accepted START answers `encBegin`, which writes only registers of ENC. -/
theorem encStartInitialisesEncoder : Obligations.EncStartInitialisesEncoder := by
  unfold Obligations.EncStartInitialisesEncoder
  intro s X cap h
  rw [exec_encStart_eq]
  exact ⟨_, onStart_accepted h _, rfl, encFrame_encBegin _ _ _, rfl⟩

/-- Settles O12: ENC.ZERO writes one byte, the counter at the slot. -/
theorem encZeroClosesTheBlock : Obligations.EncZeroClosesTheBlock := by
  unfold Obligations.EncZeroClosesTheBlock
  intro s hb hrd hread hslot
  have h := execEncZero_eq_next.mpr ⟨⟨hb, hrd, hread⟩, hslot, rfl⟩
  exact ⟨_, h, rfl, encFrame_execEncZero h, read_write_same _ _ _, fun i hi => read_write_other _ _ hi⟩

/-- Settles O13: ENC.DATA writes one byte, at `wr`; a counter up to 253 does not wrap. -/
theorem encDataCopiesAndCounts : Obligations.EncDataCopiesAndCounts := by
  unfold Obligations.EncDataCopiesAndCounts
  intro s b hb hrd hread hb0 hcnt hwr
  have h := execEncData_eq_next.mpr ⟨⟨hb, hrd, hread⟩, hb0, hcnt, hwr, rfl⟩
  have hinc : (s.enc.cnt + 1#8).toNat = s.enc.cnt.toNat + 1 := by bv_omega
  exact ⟨_, h, rfl, hinc, encFrame_execEncData h, read_write_same _ _ _, fun i hi => read_write_other _ _ hi⟩

/-- Settles O14: ENC.CAP writes the byte at `wr` and then the full block's length byte at the slot, which is
another index. -/
theorem encCapClosesTheFullBlock : Obligations.EncCapClosesTheFullBlock := by
  unfold Obligations.EncCapClosesTheFullBlock
  intro s b hb hrd hread hb0 hcnt hwr hslot
  have h := execEncCap_eq_next.mpr ⟨⟨hb, hrd, hread⟩, hb0, hcnt, hwr, hslot.trans hwr, rfl⟩
  refine ⟨_, h, rfl, encFrame_execEncCap h, ?_, read_write_same _ _ _, fun i hwr' hslot' => ?_⟩
  · exact (read_write_other _ _ hslot.ne').trans (read_write_same _ _ _)
  · exact (read_write_other _ _ hslot').trans (read_write_other _ _ hwr')

/-- Settles O15: after a cap close ENC.FINISH writes no byte, otherwise the counter at the slot. -/
theorem encFinishReportsTheLength : Obligations.EncFinishReportsTheLength := by
  unfold Obligations.EncFinishReportsTheLength
  intro s hb hrd
  constructor
  · intro hj
    have h := execEncFinish_eq_next.mpr ⟨⟨hb, hrd⟩, .inl ⟨hj, rfl⟩⟩
    exact ⟨_, h, rfl, encFrame_execEncFinish h, rfl⟩
  · intro hj hslot
    have h := execEncFinish_eq_next.mpr ⟨⟨hb, hrd⟩, .inr ⟨hj, hslot, rfl⟩⟩
    exact ⟨_, h, rfl, encFrame_execEncFinish h, read_write_same _ _ _, fun i hi => read_write_other _ _ hi⟩

/-! ### Turns (R81) -/

/-- A turn of a unit in front is taken on the state with that turn consumed. -/
theorem step_of_turns_unit {s : State} {u : UnitId} {ts : List Turn} (h : s.turns = .unit u :: ts) :
    step s = unitTurn u (s.setTurns ts) := step_of_turns_cons h

/-- On its turn a unit runs the instruction it selects. -/
theorem step_of_turn_of_select {s : State} {u : UnitId} {ts : List Turn} {i : Instr}
    (h : s.turns = .unit u :: ts) (hb : s.phaseOf u = .busy) (hi : selectStep u (s.setTurns ts) = .next i) :
    step s = exec i (s.setTurns ts) := by
  rw [step_of_turns_unit h, unitTurn, if_pos ((phaseOf_setTurns s ts u).trans hb), hi, andThen_next]

/-- Settles O29: the turn runs what ENC selects, and each clause is one case of the selection. -/
theorem encTurnRunsTheSelectedStep : Obligations.EncTurnRunsTheSelectedStep := by
  unfold Obligations.EncTurnRunsTheSelectedStep
  intro s ts hts hb
  have hrun {i : Instr} (hi : selectEnc (s.setTurns ts) = .next i) : step s = exec i (s.setTurns ts) :=
    step_of_turn_of_select hts hb hi
  refine ⟨fun hrd => hrun (selectEnc_eq_next.mpr ⟨hb, .inl ⟨hrd, rfl⟩⟩), fun b hrd hread => ?_⟩
  have hbyte {i : Instr} (hi : decoded (.rawByte s.enc.cnt b) = .next i) : step s = exec i (s.setTurns ts) :=
    hrun (selectEnc_eq_next.mpr ⟨hb, .inr ⟨hrd, b, hread, decoded_rawByte_eq_next.mp hi⟩⟩)
  exact ⟨fun h0 => hbyte (decoded_rawByte_eq_next.mpr (.inl ⟨h0, rfl⟩)),
    fun h0 hcnt => hbyte (decoded_rawByte_eq_next.mpr (.inr (.inl ⟨h0, hcnt, rfl⟩))),
    fun h0 hcnt => hbyte (decoded_rawByte_eq_next.mpr (.inr (.inr ⟨h0, hcnt, rfl⟩)))⟩

/-! ### A unit that is not BUSY (R81, R95, R135) -/

theorem encByteReady_of_not_busy {s : State} (h : s.enc.phase ≠ .busy) (b : Byte) : ¬encByteReady b s = true :=
  fun hready => h (encByteReady_iff.mp hready).1

theorem encEndReady_of_not_busy {s : State} (h : s.enc.phase ≠ .busy) : ¬encEndReady s = true :=
  fun hready => h (encEndReady_iff.mp hready).1

theorem decHdrReady_of_not_busy {s : State} (h : s.dec.phase ≠ .busy) (n : Byte) : ¬decHdrReady n s = true :=
  fun hready => h (decHdrReady_iff.mp hready).1

theorem decDataReady_of_not_busy {s : State} (h : s.dec.phase ≠ .busy) : ¬decDataReady s = true :=
  fun hready => h (decDataReady_iff.mp hready).1

theorem decEndReady_of_not_busy {s : State} (h : s.dec.phase ≠ .busy) : ¬decEndReady s = true :=
  fun hready => h (decEndReady_iff.mp hready).1

theorem enc_steps_refused_of_not_busy {s : State} (h : s.enc.phase ≠ .busy) (b : Byte) :
    exec .encZero s = .refused .stepNotEnabled ∧ exec (.encData b) s = .refused .stepNotEnabled ∧
      exec (.encCap b) s = .refused .stepNotEnabled ∧ exec .encFinish s = .refused .stepNotEnabled := by
  have hbyte := encByteReady_of_not_busy h
  refine ⟨if_neg (hbyte _), if_neg ?_, if_neg ?_, if_neg (encEndReady_of_not_busy h)⟩ <;> simp [hbyte b]

theorem dec_steps_refused_of_not_busy {s : State} (h : s.dec.phase ≠ .busy) (n : Byte) :
    exec .blkIllegal s = .refused .stepNotEnabled ∧ exec .blkEmpty s = .refused .stepNotEnabled ∧
      exec (.blkShort n) s = .refused .stepNotEnabled ∧ exec .blkFull s = .refused .stepNotEnabled ∧
      exec .decData s = .refused .stepNotEnabled ∧ exec .decFinish s = .refused .stepNotEnabled := by
  have hhdr := decHdrReady_of_not_busy h
  refine ⟨if_neg (hhdr _), if_neg (hhdr _), if_neg ?_, if_neg (hhdr _), if_neg (decDataReady_of_not_busy h),
    if_neg (decEndReady_of_not_busy h)⟩
  simp [hhdr n]

/-- Settles O33: every step's enabling condition asks for BUSY, and so does a turn. -/
theorem noStepOfAUnitThatIsNotBusy : Obligations.NoStepOfAUnitThatIsNotBusy := by
  unfold Obligations.NoStepOfAUnitThatIsNotBusy
  refine ⟨fun s b h => enc_steps_refused_of_not_busy h b, fun s n h => dec_steps_refused_of_not_busy h n,
    fun s ts u hts h => ?_⟩
  rw [step_of_turns_unit hts, unitTurn_not_busy (by rwa [phaseOf_setTurns])]

end Sys2Proof.Machine
end

section
/-! The machine's invariant through every step (40_encoder.md R86, 41_decoder.md R105, 10_state.md R33). -/

namespace Sys2Proof.Machine

/-! ### The spaces stay in canonical form -/

theorem memoryInv_setEnc {s : State} (h : MemoryInv s) (e : EncRegs) : MemoryInv (s.setEnc e) := by
  intro sp
  rw [space_setEnc]
  exact h sp

theorem memoryInv_setDec {s : State} (h : MemoryInv s) (d : DecRegs) : MemoryInv (s.setDec d) := by
  intro sp
  rw [space_setDec]
  exact h sp

theorem memoryInv_setSpace {s : State} (h : MemoryInv s) (sp : Space) {m : Memory} (hm : Memory.wf m) :
    MemoryInv (s.setSpace sp m) := by
  intro sp'
  by_cases hsp : sp' = sp
  · subst hsp
    rwa [space_setSpace_same]
  · rw [space_setSpace_other s hsp]
    exact h sp'

theorem memoryInv_write {s : State} (h : MemoryInv s) (sp : Space) (i : Nat) (v : Byte) :
    MemoryInv (s.setSpace sp (Memory.write (s.space sp) i v)) :=
  memoryInv_setSpace h sp (wf_write (h sp) i v)

theorem memoryInv_voidOut {s : State} (h : MemoryInv s) (u : UnitId) (n : Nat) : MemoryInv (voidOut u n s) := by
  intro sp
  rw [voidOut, space_setDraws]
  exact memoryInv_setSpace h _ (wf_fill (h _) _ _) sp

theorem memoryInv_raiseMalformed {s : State} (h : MemoryInv s) (c : Cause) : MemoryInv (raiseMalformed c s) :=
  memoryInv_setDec (memoryInv_voidOut h .dec _) _

theorem memoryInv_openBlock {s : State} (h : MemoryInv s) (n : Byte) : MemoryInv (openBlock n s) := by
  rw [openBlock_eq]
  split
  · exact memoryInv_raiseMalformed h _
  · exact memoryInv_setDec h _

theorem memoryInv_blockEnd {s t : State} (hs : MemoryInv s) (h : blockEnd s = .next t) : MemoryInv t := by
  obtain ⟨_, _, rfl⟩ | ⟨_, rfl⟩ := blockEnd_eq_next.mp h
  · exact memoryInv_setDec (memoryInv_write hs .decOut _ _) _
  · exact memoryInv_setDec hs _

theorem memoryInv_unitStep_enc {s t : State} (hs : MemoryInv s) (h : unitStep .enc s = .next t) : MemoryInv t := by
  have hwrite (i : Nat) (v : Byte) := memoryInv_write hs .encOut i v
  obtain h | ⟨b, h⟩ | ⟨b, h⟩ | h := unitStep_enc_cases h
  · obtain ⟨_, _, rfl⟩ := execEncZero_eq_next.mp h
    exact memoryInv_setEnc (hwrite _ _) _
  · obtain ⟨_, _, _, _, rfl⟩ := execEncData_eq_next.mp h
    exact memoryInv_setEnc (hwrite _ _) _
  · obtain ⟨_, _, _, _, _, rfl⟩ := execEncCap_eq_next.mp h
    exact memoryInv_setEnc (memoryInv_write (hwrite _ _) .encOut _ _) _
  · obtain ⟨_, ⟨_, rfl⟩ | ⟨_, _, rfl⟩⟩ := execEncFinish_eq_next.mp h
    · exact memoryInv_setEnc hs _
    · exact memoryInv_setEnc (hwrite _ _) _

theorem memoryInv_unitStep_dec {s t : State} (hs : MemoryInv s) (h : unitStep .dec s = .next t) : MemoryInv t := by
  obtain h | h | ⟨n, h⟩ | h | h | h := unitStep_dec_cases h
  · obtain ⟨_, rfl⟩ := execBlkIllegal_eq_next.mp h
    exact memoryInv_raiseMalformed hs _
  · obtain ⟨_, hend⟩ := blockEnd_of_execBlkEmpty h
    exact memoryInv_blockEnd (memoryInv_setDec hs _) hend
  · obtain ⟨_, _, rfl⟩ := execBlkShort_eq_next.mp h
    exact memoryInv_openBlock hs n
  · obtain ⟨_, rfl⟩ := execBlkFull_eq_next.mp h
    exact memoryInv_openBlock hs _
  · obtain ⟨_, b, _, hcases⟩ := execDecData_eq_next.mp h
    have hcopied : MemoryInv (copied b s) := memoryInv_setDec (memoryInv_write hs .decOut _ _) _
    obtain ⟨_, rfl⟩ | ⟨_, _, ⟨_, hend⟩ | ⟨_, rfl⟩⟩ := hcases
    · exact memoryInv_raiseMalformed hs _
    · exact memoryInv_blockEnd hcopied hend
    · exact hcopied
  · obtain ⟨_, rfl⟩ := execDecFinish_eq_next.mp h
    exact memoryInv_setDec hs _

/-! ### A unit's invariant does not see the other unit -/

theorem encInv_congr {s t : State} (henc : t.enc = s.enc) (hin : t.encIn = s.encIn) (h : EncInv s) : EncInv t := by
  rwa [EncInv, henc, hin]

theorem decInv_congr {s t : State} (hdec : t.dec = s.dec) (hin : t.decIn = s.decIn) (h : DecInv s) : DecInv t := by
  rwa [DecInv, hdec, hin]

theorem decInv_of_encFrame {s t : State} (hf : EncFrame s t) (h : DecInv s) : DecInv t := by
  obtain ⟨hdec, _, hin, _⟩ := hf
  exact decInv_congr hdec hin h

theorem encInv_of_decFrame {s t : State} (hf : DecFrame s t) (h : EncInv s) : EncInv t := by
  obtain ⟨henc, hin, _⟩ := hf
  exact encInv_congr henc hin h

/-! ### Steps, runs and commands keep the invariant -/

theorem machineInv_unitStep {u : UnitId} {s t : State} (hs : MachineInv s) (h : unitStep u s = .next t) :
    MachineInv t := by
  obtain ⟨hmem, henc, hdec⟩ := hs
  cases u with
  | enc =>
    exact ⟨memoryInv_unitStep_enc hmem h, encInv_unitStep henc h, decInv_of_encFrame (encFrame_unitStep h) hdec⟩
  | dec =>
    exact ⟨memoryInv_unitStep_dec hmem h, encInv_of_decFrame (decFrame_unitStep h) henc, decInv_unitStep hdec h⟩

theorem machineInv_runUnit {u : UnitId} {k : Nat} {s t : State} (hs : MachineInv s)
    (h : runUnit u k s = .next t) : MachineInv t :=
  runUnit_keeps (fun _ _ => machineInv_unitStep) k hs h

theorem machineInv_encBegin {len cap : Nat} {s : State} (hs : MachineInv s)
    (h : startRefusal .enc len cap s = none) : MachineInv (encBegin len cap s) := by
  obtain ⟨hmem, _, hdec⟩ := hs
  exact ⟨memoryInv_setEnc hmem _, encInv_encBegin h, hdec⟩

theorem machineInv_decBegin {len cap : Nat} {s : State} (hs : MachineInv s)
    (h : startRefusal .dec len cap s = none) : MachineInv (decBegin len cap s) := by
  obtain ⟨hmem, henc, _⟩ := hs
  refine ⟨?_, encInv_of_decFrame (decFrame_decBegin len cap s) henc, decInv_decBegin h⟩
  unfold decBegin
  split
  · exact memoryInv_raiseMalformed (memoryInv_setDec hmem _) _
  · exact memoryInv_setDec hmem _

/-- A command or a START is refused by a BUSY unit without effect, or begins an operation and runs it. -/
theorem machineInv_command {i : Instr} {s t : State} (hs : MachineInv s) (h : exec i s = .next t)
    (hi : ∃ len cap, i = .encode len cap ∨ i = .decode len cap ∨ i = .encStart len cap ∨ i = .decStart len cap) :
    MachineInv t := by
  obtain ⟨len, cap, rfl | rfl | rfl | rfl⟩ := hi
  · obtain ⟨_, rfl⟩ | ⟨_, hnone, hrun⟩ := execEncode_next h
    · exact hs
    · exact machineInv_runUnit (machineInv_encBegin hs hnone) hrun
  · obtain ⟨_, rfl⟩ | ⟨_, hnone, hrun⟩ := execDecode_next h
    · exact hs
    · exact machineInv_runUnit (machineInv_decBegin hs hnone) hrun
  · obtain ⟨_, rfl⟩ | ⟨_, hnone, rfl⟩ := execEncStart_next h
    · exact hs
    · exact machineInv_encBegin hs hnone
  · obtain ⟨_, rfl⟩ | ⟨_, hnone, rfl⟩ := execDecStart_next h
    · exact hs
    · exact machineInv_decBegin hs hnone

/-! ### Host writes and reset keep the invariant -/

theorem hostWrite_eq_next {sp : Space} {i : Nat} {v : Byte} {s t : State} :
    hostWrite sp i v s = .next t ↔
      s.phaseOf sp.owner ≠ .busy ∧ t = s.setSpace sp (Memory.write (s.space sp) i v) := by
  by_cases hb : s.phaseOf sp.owner = .busy
  · simp [hostWrite_of_busy hb, hb]
  · simp [hostWrite_of_not_busy hb, hb, eq_comm]

/-- The host writes only beside a unit that is not BUSY, whose invariant asks nothing of its input. -/
theorem machineInv_hostWrite {sp : Space} {i : Nat} {v : Byte} {s t : State} (hs : MachineInv s)
    (h : hostWrite sp i v s = .next t) : MachineInv t := by
  obtain ⟨hb, rfl⟩ := hostWrite_eq_next.mp h
  obtain ⟨hmem, henc, hdec⟩ := hs
  refine ⟨memoryInv_write hmem sp i v, ?_⟩
  cases sp with
  | encIn => exact ⟨encInv_of_not_busy hb, hdec⟩
  | encOut => exact ⟨henc, hdec⟩
  | decIn => exact ⟨henc, decInv_of_not_busy hb hdec.1⟩
  | decOut => exact ⟨henc, hdec⟩

theorem memoryInv_abandon {s : State} (h : MemoryInv s) (u : UnitId) : MemoryInv (abandon u s) := by
  unfold abandon
  split
  · cases u with
    | enc => exact memoryInv_voidOut h _ _
    | dec => exact memoryInv_voidOut h _ _
  · exact h

theorem machineInv_resetEvent {s : State} (h : MemoryInv s) : MachineInv (resetEvent s) := by
  refine ⟨?_, encInv_of_not_busy nofun, decInv_of_not_busy nofun nofun⟩
  intro sp
  rw [resetEvent, space_setDraws]
  exact memoryInv_setDec (memoryInv_setEnc (memoryInv_abandon (memoryInv_abandon h .enc) .dec) _) _ sp

theorem machineInv_move {s t : State} (hs : MachineInv s) (h : Move s t) : MachineInv t := by
  cases h with
  | idle h => exact h ▸ hs
  | unitStep u _ h => exact machineInv_unitStep hs h
  | command i h hi => exact machineInv_command hs h hi
  | write sp i v h => exact machineInv_hostWrite hs h
  | reset h => exact h ▸ machineInv_resetEvent hs.1

/-- Settles O38: a step consumes a turn, which is no part of the invariant, and makes one move, which keeps
it. -/
theorem stepKeepsMachineInvariant : Obligations.StepKeepsMachineInvariant := by
  unfold Obligations.StepKeepsMachineInvariant
  intro s t hs h
  obtain ⟨ts, hmove⟩ := step_move h
  exact machineInv_move (machineInv_setTurns hs ts) hmove

end Sys2Proof.Machine
end

section
/-! What ENC has written so far, through every step (40_encoder.md R86 I4, I5). -/

namespace Sys2Proof.Machine

/-- `EncContent` by the values it speaks of: the input, the output, `rd`, the slot and the counter. -/
def EncWritten (inp out : Memory) (rd slot cnt : Nat) : Prop :=
  (∀ i, i < slot → ∃ v, Memory.read out i = some v ∧ v ≠ 0x00#8) ∧
  (∀ k, 1 ≤ k → k < cnt →
    ∃ b, Memory.read inp (rd + k - cnt) = some b ∧ b ≠ 0x00#8 ∧ Memory.read out (slot + k) = some b)

theorem encContent_iff (s : State) :
    EncContent s ↔
      (s.enc.phase = .busy → EncWritten s.encIn s.encOut s.enc.rd s.enc.slot s.enc.cnt.toNat) := Iff.rfl

theorem encWritten_start (inp out : Memory) : EncWritten inp out 0 0 1 :=
  ⟨fun i hi => absurd hi (Nat.not_lt_zero i), fun _ hk hk' => absurd hk' (Nat.not_lt.mpr hk)⟩

/-- The byte read, copied behind the open block, lengthens it. -/
theorem EncWritten.copy {inp out : Memory} {rd slot cnt : Nat} {b : Byte} (h : EncWritten inp out rd slot cnt)
    (hcnt : 1 ≤ cnt) (hread : Memory.read inp rd = some b) (hb : b ≠ 0x00#8) :
    EncWritten inp (Memory.write out (slot + cnt) b) (rd + 1) slot (cnt + 1) := by
  obtain ⟨hbelow, hblock⟩ := h
  constructor
  · intro i hi
    rw [read_write_other _ _ (by omega)]
    exact hbelow i hi
  · intro k hk hlt
    rw [show rd + 1 + k - (cnt + 1) = rd + k - cnt by omega]
    obtain rfl | hk' := Nat.eq_or_lt_of_le (Nat.le_of_lt_succ hlt)
    · exact ⟨b, by rwa [Nat.add_sub_cancel], hb, read_write_same _ _ _⟩
    · rw [read_write_other _ _ (by omega)]
      exact hblock k hk hk'

/-- A non-zero length byte in the slot closes the block; the next one is empty. -/
theorem EncWritten.close {inp out : Memory} {rd slot cnt : Nat} {n : Byte} (h : EncWritten inp out rd slot cnt)
    (hn : n ≠ 0x00#8) (rd' : Nat) : EncWritten inp (Memory.write out slot n) rd' (slot + cnt) 1 := by
  obtain ⟨hbelow, hblock⟩ := h
  refine ⟨fun i hi => ?_, fun _ hk hk' => absurd hk' (Nat.not_lt.mpr hk)⟩
  obtain hlt | rfl | hgt := Nat.lt_trichotomy i slot
  · rw [read_write_other _ _ hlt.ne]
    exact hbelow i hlt
  · exact ⟨n, read_write_same _ _ _, hn⟩
  · obtain ⟨b, _, hb, hout⟩ := hblock (i - slot) (by omega) (by omega)
    rw [Nat.add_sub_cancel' hgt.le] at hout
    exact ⟨b, (read_write_other _ _ hgt.ne').trans hout, hb⟩

theorem encContent_of_not_busy {s : State} (h : s.enc.phase ≠ .busy) : EncContent s := fun hb => absurd hb h

theorem encContent_congr {s t : State} (henc : t.enc = s.enc) (hin : t.encIn = s.encIn) (hout : t.encOut = s.encOut)
    (h : EncContent s) : EncContent t := by
  rwa [EncContent, henc, hin, hout]

theorem encContent_of_decFrame {s t : State} (hf : DecFrame s t) (h : EncContent s) : EncContent t := by
  obtain ⟨henc, hin, hout, _⟩ := hf
  exact encContent_congr henc hin hout h

theorem encContent_encBegin (len cap : Nat) (s : State) : EncContent (encBegin len cap s) :=
  fun _ => encWritten_start s.encIn s.encOut

/-- The byte steps of ENC copy a byte, close a block, or do one after the other. -/
theorem encContent_unitStep {s t : State} (hs : EncInv s) (hc : EncContent s) (h : unitStep .enc s = .next t) :
    EncContent t := by
  rw [encContent_iff] at hc ⊢
  intro _
  obtain h | ⟨b, h⟩ | ⟨b, h⟩ | h := unitStep_enc_cases h
  · obtain ⟨⟨hb, _⟩, _, rfl⟩ := execEncZero_eq_next.mp h
    obtain ⟨hwr, hcnt, _⟩ := hs hb
    have hn : s.enc.cnt ≠ 0x00#8 := by bv_omega
    have hclosed := (hc hb).close hn (s.enc.rd + 1)
    rwa [← hwr] at hclosed
  · obtain ⟨⟨hb, _, hread⟩, hb0, _, _, rfl⟩ := execEncData_eq_next.mp h
    obtain ⟨hwr, hcnt, _⟩ := hs hb
    have hinc : (s.enc.cnt + 1#8).toNat = s.enc.cnt.toNat + 1 := by bv_omega
    have hcopied := (hc hb).copy hcnt hread hb0
    rwa [← hwr, ← hinc] at hcopied
  · obtain ⟨⟨hb, _, hread⟩, hb0, _, _, _, rfl⟩ := execEncCap_eq_next.mp h
    obtain ⟨hwr, hcnt, _⟩ := hs hb
    have hclosed := ((hc hb).copy hcnt hread hb0).close (n := 0xFF#8) (by decide) (s.enc.rd + 1)
    rwa [← hwr, ← Nat.add_assoc, ← hwr] at hclosed
  · obtain ⟨_, ⟨_, rfl⟩ | ⟨_, _, rfl⟩⟩ := execEncFinish_eq_next.mp h <;> contradiction

theorem encContent_runUnit {len cap k : Nat} {s t : State} (hnone : startRefusal .enc len cap s = none)
    (h : runUnit .enc k (encBegin len cap s) = .next t) : EncContent t := by
  have hkeeps (a b : State) (ha : EncInv a ∧ EncContent a) (hab : unitStep .enc a = .next b) :
      EncInv b ∧ EncContent b := ⟨encInv_unitStep ha.1 hab, encContent_unitStep ha.1 ha.2 hab⟩
  exact (runUnit_keeps hkeeps k ⟨encInv_encBegin hnone, encContent_encBegin len cap s⟩ h).2

theorem encContent_command {i : Instr} {s t : State} (hc : EncContent s) (h : exec i s = .next t)
    (hi : ∃ len cap, i = .encode len cap ∨ i = .decode len cap ∨ i = .encStart len cap ∨ i = .decStart len cap) :
    EncContent t := by
  obtain ⟨len, cap, rfl | rfl | rfl | rfl⟩ := hi
  · obtain ⟨_, rfl⟩ | ⟨_, hnone, hrun⟩ := execEncode_next h
    · exact hc
    · exact encContent_runUnit hnone hrun
  · exact encContent_of_decFrame (decFrame_execDecode h) hc
  · obtain ⟨_, rfl⟩ | ⟨_, _, rfl⟩ := execEncStart_next h
    · exact hc
    · exact encContent_encBegin len cap s
  · exact encContent_of_decFrame (decFrame_execDecStart h) hc

theorem encContent_hostWrite {sp : Space} {i : Nat} {v : Byte} {s t : State} (hc : EncContent s)
    (h : hostWrite sp i v s = .next t) : EncContent t := by
  obtain ⟨hb, rfl⟩ := hostWrite_eq_next.mp h
  cases sp with
  | encIn => exact encContent_of_not_busy hb
  | encOut => exact encContent_of_not_busy hb
  | decIn => exact hc
  | decOut => exact hc

theorem encContent_move {s t : State} (hs : EncInv s) (hc : EncContent s) (h : Move s t) : EncContent t := by
  cases h with
  | idle h => exact h ▸ hc
  | unitStep u _ h =>
    cases u with
    | enc => exact encContent_unitStep hs hc h
    | dec => exact encContent_of_decFrame (decFrame_unitStep h) hc
  | command i h hi => exact encContent_command hc h hi
  | write sp i v h => exact encContent_hostWrite hc h
  | reset h => exact h ▸ encContent_of_not_busy nofun

/-- Settles O40: a step makes one move, and only the byte steps of ENC touch what the content speaks of while
ENC is BUSY. -/
theorem stepKeepsEncodedContent : Obligations.StepKeepsEncodedContent := by
  unfold Obligations.StepKeepsEncodedContent
  intro s t hs hc h
  obtain ⟨ts, hmove⟩ := step_move h
  exact encContent_move (s := s.setTurns ts) hs hc hmove

end Sys2Proof.Machine
end

section
/-! How many steps a unit takes (40_encoder.md R90, 41_decoder.md R110, 70_reset_and_hazards.md R151). -/

namespace Sys2Proof.Machine

/-! ### What one step does to the phase and the read index -/

/-- A step of ENC at the end of its input ends the operation; every other one consumes one byte. -/
theorem unitStep_enc_progress {s t : State} (h : unitStep .enc s = .next t) :
    ((s.enc.rd = s.enc.inLen ∧ t.enc.phase = .done) ∨
      (s.enc.rd < s.enc.inLen ∧ t.enc.phase = .busy ∧ t.enc.rd = s.enc.rd + 1)) ∧
    t.enc.inLen = s.enc.inLen ∧ t.enc.outCap = s.enc.outCap := by
  obtain h | ⟨b, h⟩ | ⟨b, h⟩ | h := unitStep_enc_cases h
  · obtain ⟨⟨hb, hrd, _⟩, _, rfl⟩ := execEncZero_eq_next.mp h
    exact ⟨.inr ⟨hrd, hb, rfl⟩, rfl, rfl⟩
  · obtain ⟨⟨hb, hrd, _⟩, _, _, _, rfl⟩ := execEncData_eq_next.mp h
    exact ⟨.inr ⟨hrd, hb, rfl⟩, rfl, rfl⟩
  · obtain ⟨⟨hb, hrd, _⟩, _, _, _, _, rfl⟩ := execEncCap_eq_next.mp h
    exact ⟨.inr ⟨hrd, hb, rfl⟩, rfl, rfl⟩
  · obtain ⟨⟨_, hrd⟩, ⟨_, rfl⟩ | ⟨_, _, rfl⟩⟩ := execEncFinish_eq_next.mp h
    · exact ⟨.inl ⟨hrd, rfl⟩, rfl, rfl⟩
    · exact ⟨.inl ⟨hrd, rfl⟩, rfl, rfl⟩

/-- DEC gets from `s` to `t` by ending the operation or by consuming one byte of its input. -/
def DecProgress (s t : State) : Prop :=
  t.dec.phase = .done ∨
    (t.dec.phase = .busy ∧ s.dec.rd < s.dec.inLen ∧ t.dec.rd = s.dec.rd + 1 ∧ t.dec.inLen = s.dec.inLen)

theorem decProgress_openBlock {n : Byte} {s : State} (h : decHdrReady n s = true) : DecProgress s (openBlock n s) := by
  obtain ⟨hb, _, hrd, _⟩ := decHdrReady_iff.mp h
  rw [openBlock_eq]
  split
  · exact .inl rfl
  · exact .inr ⟨hb, hrd, rfl, rfl⟩

/-- The end of a block consumes nothing. -/
theorem blockEnd_keeps {s t : State} (h : blockEnd s = .next t) :
    t.dec.phase = s.dec.phase ∧ t.dec.rd = s.dec.rd ∧ t.dec.inLen = s.dec.inLen := by
  obtain ⟨_, _, rfl⟩ | ⟨_, rfl⟩ := blockEnd_eq_next.mp h
  · exact ⟨rfl, rfl, rfl⟩
  · exact ⟨rfl, rfl, rfl⟩

/-- Every step of DEC ends the operation or consumes one byte. -/
theorem unitStep_dec_progress {s t : State} (h : unitStep .dec s = .next t) : DecProgress s t := by
  obtain h | h | ⟨n, h⟩ | h | h | h := unitStep_dec_cases h
  · obtain ⟨_, rfl⟩ := execBlkIllegal_eq_next.mp h
    exact .inl rfl
  · obtain ⟨hready, hend⟩ := blockEnd_of_execBlkEmpty h
    obtain ⟨hb, _, hrd, _⟩ := decHdrReady_iff.mp hready
    obtain ⟨hphase, hrd', hlen⟩ := blockEnd_keeps hend
    exact .inr ⟨hphase.trans hb, hrd, hrd', hlen⟩
  · obtain ⟨hready, _, rfl⟩ := execBlkShort_eq_next.mp h
    exact decProgress_openBlock hready
  · obtain ⟨hready, rfl⟩ := execBlkFull_eq_next.mp h
    exact decProgress_openBlock hready
  · obtain ⟨⟨hb, _, _⟩, b, ⟨hrd, _⟩, hcases⟩ := execDecData_eq_next.mp h
    obtain ⟨_, rfl⟩ | ⟨_, _, ⟨_, hend⟩ | ⟨_, rfl⟩⟩ := hcases
    · exact .inl rfl
    · obtain ⟨hphase, hrd', hlen⟩ := blockEnd_keeps hend
      exact .inr ⟨hphase.trans hb, hrd, hrd', hlen⟩
    · exact .inr ⟨hb, hrd, rfl, rfl⟩
  · obtain ⟨_, rfl⟩ := execDecFinish_eq_next.mp h
    exact .inl rfl

/-! ### A run ends -/

/-- A run with more steps than `left` counts ends `DONE`, if every step from `P` answers, keeps `P`, and ends
the operation or leaves fewer. -/
theorem runUnit_done {u : UnitId} {P : State → Prop} {left : State → Nat}
    (hstep : ∀ s, P s → s.phaseOf u = .busy → ∃ t, unitStep u s = .next t ∧ P t ∧
      (t.phaseOf u = .done ∨ (t.phaseOf u = .busy ∧ left t < left s)))
    {k : Nat} {s : State} (hs : P s) (hb : s.phaseOf u = .busy) (hk : left s < k) :
    ∃ t, runUnit u k s = .next t ∧ P t ∧ t.phaseOf u = .done := by
  induction k generalizing s with
  | zero => exact absurd hk (Nat.not_lt_zero _)
  | succ k ih =>
    obtain ⟨a, ha, hPa, hnext⟩ := hstep s hs hb
    rw [runUnit_succ_busy k hb, ha, andThen_next]
    obtain hdone | ⟨hba, hless⟩ := hnext
    · have hnot : a.phaseOf u ≠ .busy := by
        rw [hdone]
        exact nofun
      exact ⟨a, runUnit_not_busy k hnot, hPa, hdone⟩
    · exact ih hPa hba (by omega)

/-- A BUSY ENC ends after one step per byte left and one more, with any property its steps keep. -/
theorem runUnit_enc_done {P : State → Prop}
    (hkeeps : ∀ s t, EncInv s → P s → unitStep .enc s = .next t → P t)
    {s : State} (hs : EncInv s) (hP : P s) (hb : s.enc.phase = .busy) :
    ∃ t, runUnit .enc (s.enc.inLen - s.enc.rd + 1) s = .next t ∧ P t ∧ t.enc.phase = .done := by
  have hstep (a : State) (ha : EncInv a ∧ P a) (hba : a.phaseOf .enc = .busy) :
      ∃ t, unitStep .enc a = .next t ∧ (EncInv t ∧ P t) ∧ (t.phaseOf .enc = .done ∨
        (t.phaseOf .enc = .busy ∧ t.enc.inLen - t.enc.rd < a.enc.inLen - a.enc.rd)) := by
    obtain ⟨hinv, hPa⟩ := ha
    obtain ⟨t, ht⟩ := unitStep_enc_answers hinv hba
    refine ⟨t, ht, ⟨encInv_unitStep hinv ht, hkeeps a t hinv hPa ht⟩, ?_⟩
    obtain ⟨⟨_, hdone⟩ | ⟨hrd, hbt, hrd'⟩, hlen, _⟩ := unitStep_enc_progress ht
    · exact .inl hdone
    · exact .inr ⟨hbt, by omega⟩
  obtain ⟨t, ht, ⟨_, hPt⟩, hdone⟩ :=
    runUnit_done (left := fun a => a.enc.inLen - a.enc.rd) hstep ⟨hs, hP⟩ hb (Nat.lt_succ_self _)
  exact ⟨t, ht, hPt, hdone⟩

/-- A BUSY DEC ends after at most one step per byte left and one more. -/
theorem runUnit_dec_done {s : State} (hs : DecInv s) (hb : s.dec.phase = .busy) :
    ∃ t, runUnit .dec (s.dec.inLen - s.dec.rd + 1) s = .next t ∧ DecInv t ∧ t.dec.phase = .done := by
  have hstep (a : State) (ha : DecInv a) (hba : a.phaseOf .dec = .busy) :
      ∃ t, unitStep .dec a = .next t ∧ DecInv t ∧ (t.phaseOf .dec = .done ∨
        (t.phaseOf .dec = .busy ∧ t.dec.inLen - t.dec.rd < a.dec.inLen - a.dec.rd)) := by
    obtain ⟨t, ht⟩ := unitStep_dec_answers ha hba
    refine ⟨t, ht, decInv_unitStep ha ht, ?_⟩
    obtain hdone | ⟨hbt, hrd, hrd', hlen⟩ := unitStep_dec_progress ht
    · exact .inl hdone
    · exact .inr ⟨hbt, by omega⟩
  exact runUnit_done (left := fun a => a.dec.inLen - a.dec.rd) hstep hs hb (Nat.lt_succ_self _)

/-- Settles O47: under the invariant every step answers, and it ends the operation or consumes a byte. -/
theorem busyUnitFinishesInBoundedSteps : Obligations.BusyUnitFinishesInBoundedSteps := by
  unfold Obligations.BusyUnitFinishesInBoundedSteps
  rintro s ⟨_, henc, hdec⟩
  constructor
  · intro hb
    obtain ⟨t, ht, _, hdone⟩ := runUnit_enc_done (P := fun _ => True) (fun _ _ _ _ _ => trivial) henc trivial hb
    exact ⟨t, ht, hdone⟩
  · intro hb
    obtain ⟨t, ht, _, hdone⟩ := runUnit_dec_done hdec hb
    exact ⟨t, ht, hdone⟩

/-! ### Between START and FINISH ENC takes one step per byte -/

theorem runUnit_enc_bytes (k : Nat) {s : State} (hs : EncInv s) (hb : s.enc.phase = .busy)
    (hk : s.enc.rd + k ≤ s.enc.inLen) :
    ∃ t, runUnit .enc k s = .next t ∧ t.enc.phase = .busy ∧ t.enc.rd = s.enc.rd + k := by
  induction k generalizing s with
  | zero => exact ⟨s, rfl, hb, rfl⟩
  | succ k ih =>
    obtain ⟨a, ha⟩ := unitStep_enc_answers hs hb
    obtain ⟨⟨hend, _⟩ | ⟨_, hba, hrd⟩, hlen, _⟩ := unitStep_enc_progress ha
    · omega
    · obtain ⟨t, ht, hbt, hrdt⟩ := ih (encInv_unitStep hs ha) hba (by omega)
      exact ⟨t, by rw [runUnit_succ_busy (u := .enc) k hb, ha, andThen_next, ht], hbt, by omega⟩

/-- Settles O44: START leaves ENC BUSY at `rd` 0, and each step before the end consumes one byte. -/
theorem encodeTakesOneStepPerByte : Obligations.EncodeTakesOneStepPerByte := by
  unfold Obligations.EncodeTakesOneStepPerByte
  intro s X cap k h hk
  have hinv := encInv_encBegin (startRefusal_of_accepts h)
  obtain ⟨t, ht, hbt, hrd⟩ := runUnit_enc_bytes k hinv rfl (show 0 + k ≤ X.length by omega)
  exact ⟨t, ht, hbt, hrd.trans (Nat.zero_add k)⟩

/-! ### The machine's own steps run a BUSY ENC to its end (R142, R151) -/

theorem step_of_no_turns_enc_busy {s : State} (hts : s.turns = []) (hb : s.enc.phase = .busy) :
    step s = unitStep .enc s := by
  rw [step, hts]
  exact (if_pos hb).trans (unitTurn_busy hb)

theorem core_run_succ_of_next (k : Nat) {s t : State} (h : step s = .next t) :
    (Host.Core.run Sys2Proof.core (k + 1) s : Result) = (Host.Core.run Sys2Proof.core k t : Result) :=
  run_succ_next Sys2Proof.core k s t h

/-- With no turns left, the machine's steps are those of ENC up to ENC.FINISH. -/
theorem core_run_eq_runUnit_enc (k : Nat) {s : State} (hs : EncInv s) (hts : s.turns = [])
    (hb : s.enc.phase = .busy) (hk : s.enc.rd + k ≤ s.enc.inLen + 1) :
    (Host.Core.run Sys2Proof.core k s : Result) = runUnit .enc k s := by
  induction k generalizing s with
  | zero => rfl
  | succ k ih =>
    obtain ⟨a, ha⟩ := unitStep_enc_answers hs hb
    have hstep : step s = .next a := (step_of_no_turns_enc_busy hts hb).trans ha
    rw [core_run_succ_of_next k hstep, runUnit_succ_busy (u := .enc) k hb, ha, andThen_next]
    obtain ⟨⟨hend, _⟩ | ⟨_, hba, hrd⟩, hlen, _⟩ := unitStep_enc_progress ha
    · obtain rfl : k = 0 := by omega
      rfl
    · obtain ⟨_, _, _, _, hturns, _⟩ := encFrame_unitStep ha
      exact ih (encInv_unitStep hs ha) (hturns.trans hts) hba (by omega)

/-- The turns are no part of what a START checks. -/
theorem accepts_setTurns {u : UnitId} {X : List Byte} {cap : Nat} {s : State} (h : Accepts u X cap s)
    (ts : List Turn) : Accepts u X cap (s.setTurns ts) := by
  obtain ⟨hb, hlen, hcap, hin⟩ := h
  exact ⟨by rwa [phaseOf_setTurns], hlen, hcap, by rwa [space_setTurns]⟩

/-- Settles O45: the first step is the START, and the steps after it are those of the atomic ENCODE's run. -/
theorem steppedEncodeEqualsAtomicEncode : Obligations.SteppedEncodeEqualsAtomicEncode := by
  unfold Obligations.SteppedEncodeEqualsAtomicEncode
  intro s X cap hacc hts
  have h := accepts_setTurns hacc []
  have hstart : step s = .next (encBegin X.length cap (s.setTurns [])) := by
    rw [step_of_turns_cons hts, takeTurn_start, decoded_start_enc, andThen_next, exec_encStart_eq,
      onStart_accepted h]
  rw [core_run_succ_of_next _ hstart, exec_encode_of_accepts h]
  exact core_run_eq_runUnit_enc (X.length + 1) (encInv_encBegin (startRefusal_of_accepts h)) rfl rfl
    (show 0 + (X.length + 1) ≤ X.length + 1 by omega)

end Sys2Proof.Machine
end

section
/-! The functional frame `enc X`, by induction over the blocks of the raw buffer (40_encoder.md R87, R88). -/

namespace Sys2Proof.Machine

/-! ### The blocks of a raw buffer -/

/-- Zero-free bytes that are fewer than a block's 255 make a block with their own length byte. -/
theorem isBlock_ofNat {d : List Byte} (h0 : 0x00#8 ∉ d) (hlen : d.length ≤ 254) :
    IsBlock (BitVec.ofNat 8 (d.length + 1)) d := by
  refine ⟨?_, h0⟩
  rw [BitVec.toNat_ofNat, Nat.mod_eq_of_lt (by omega)]

/-- A raw buffer is one block, or starts with a full block and goes on, or starts with the bytes of a block
that is not full and the zero behind it. -/
theorem exists_first_block (X : List Byte) :
    (∃ n, IsBlock n X) ∨ (∃ d Y, X = d ++ Y ∧ IsBlock 0xFF#8 d ∧ Y ≠ []) ∨
      (∃ n d Y, X = d ++ 0x00#8 :: Y ∧ IsBlock n d ∧ n ≠ 0xFF#8) := by
  have htake : (X.take 254).length ≤ 254 := List.length_take_le 254 X
  by_cases hzero : 0x00#8 ∈ X.take 254
  · obtain ⟨d, rest, hsplit, hd⟩ := List.eq_append_cons_of_mem hzero
    have hlen : d.length < 254 := by
      rw [hsplit, List.length_append, List.length_cons] at htake
      omega
    refine .inr (.inr ⟨_, d, rest ++ X.drop 254, ?_, isBlock_ofNat hd hlen.le, by bv_omega⟩)
    rw [← List.cons_append, ← List.append_assoc, ← hsplit, List.take_append_drop]
  · by_cases hlen : X.length ≤ 254
    · rw [List.take_of_length_le hlen] at hzero
      exact .inl ⟨_, isBlock_ofNat hzero hlen⟩
    · have hfull : (X.take 254).length = 254 := List.length_take_of_le (by omega)
      refine .inr (.inl ⟨_, X.drop 254, (List.take_append_drop 254 X).symm, ?_, fun hnil => ?_⟩)
      · simpa [hfull] using isBlock_ofNat hzero hfull.le
      · exact hlen (List.drop_eq_nil_iff.mp hnil)

/-- Induction over the blocks that ENC makes of a raw buffer. -/
theorem block_induction {P : List Byte → Prop} (final : ∀ n d, IsBlock n d → P d)
    (full : ∀ d X, IsBlock 0xFF#8 d → X ≠ [] → P X → P (d ++ X))
    (short : ∀ n d X, IsBlock n d → n ≠ 0xFF#8 → P X → P (d ++ 0x00#8 :: X)) (X : List Byte) : P X := by
  induction hlen : X.length using Nat.strong_induction_on generalizing X with
  | _ len ih =>
    subst hlen
    obtain ⟨n, hb⟩ | ⟨d, Y, rfl, hb, hY⟩ | ⟨n, d, Y, rfl, hb, hn⟩ := exists_first_block X
    · exact final n X hb
    · refine full d Y hb hY (ih _ ?_ Y rfl)
      rw [List.length_append, hb.length_full]
      omega
    · refine short n d Y hb hn (ih _ ?_ Y rfl)
      simp only [List.length_append, List.length_cons]
      omega

/-- Settles O51: the length byte of a block is not zero, nor are its data bytes. -/
theorem encodedFrameHoldsNoZero : Obligations.EncodedFrameHoldsNoZero := by
  unfold Obligations.EncodedFrameHoldsNoZero
  intro X
  induction X using block_induction with
  | final n d hb =>
    rw [enc_final hb]
    simp [hb.ne_zero.symm, hb.2]
  | full d X hb hX ih =>
    rw [enc_full hb hX]
    simp [hb.2, ih]
  | short n d X hb hn ih =>
    rw [enc_short hb hn]
    simp [hb.ne_zero.symm, hb.2, ih]

/-! ### The length of a frame (R87) -/

/-- The final close depends on the last run alone. -/
theorem finalClose_eq {X r : List Byte} (h : (zeroRuns X).getLast? = some r) :
    finalClose X = if 0 < r.length ∧ r.length % 254 = 0 then 0 else 1 := by
  rw [finalClose, h]
  rfl

theorem finalClose_le_one (X : List Byte) : finalClose X ≤ 1 := by
  unfold finalClose
  dsimp only
  split <;> decide

theorem zeroRuns_of_zero_free {d : List Byte} (h : 0x00#8 ∉ d) : zeroRuns d = [d] := by
  simpa using zeroRuns_append (X := []) h rfl

theorem zeroRuns_append_zero {d : List Byte} (h : 0x00#8 ∉ d) (X : List Byte) :
    zeroRuns (d ++ 0x00#8 :: X) = d :: zeroRuns X := by
  simpa using zeroRuns_append h (zeroRuns_zero_cons X)

/-- One block has one of the two: it is full, or it is closed at the end. -/
theorem fullBlocks_finalClose_final {n : Byte} {d : List Byte} (h : IsBlock n d) :
    254 * fullBlocks d ≤ d.length ∧ fullBlocks d + finalClose d = 1 := by
  have hruns := zeroRuns_of_zero_free h.2
  have hclose := finalClose_eq (X := d) (r := d) (by rw [hruns]; rfl)
  have hfull : fullBlocks d = d.length / 254 := by simp [fullBlocks, hruns]
  have hlen : d.length + 1 = n.toNat := h.1
  have hlt := n.isLt
  rw [hclose, hfull]
  split <;> omega

theorem fullBlocks_full {d X : List Byte} (h : IsBlock 0xFF#8 d) : fullBlocks (d ++ X) = fullBlocks X + 1 := by
  obtain ⟨r, rs, hX⟩ := List.exists_cons_of_ne_nil (zeroRuns_ne_nil X)
  simp only [fullBlocks, zeroRuns_append h.2 hX, hX, List.map_cons, List.sum_cons, List.length_append, h.length_full]
  omega

theorem fullBlocks_short {n : Byte} {d : List Byte} (h : IsBlock n d) (hn : n ≠ 0xFF#8) (X : List Byte) :
    fullBlocks (d ++ 0x00#8 :: X) = fullBlocks X := by
  have hlt := h.length_lt hn
  simp only [fullBlocks, zeroRuns_append_zero h.2, List.map_cons, List.sum_cons]
  omega

/-- A full block before a buffer that goes on lengthens its first run by 254, which may be the last one too. -/
theorem finalClose_full {d X : List Byte} (h : IsBlock 0xFF#8 d) (hX : X ≠ []) :
    finalClose (d ++ X) = finalClose X := by
  obtain ⟨r, rs, hruns⟩ := List.exists_cons_of_ne_nil (zeroRuns_ne_nil X)
  have hruns' := zeroRuns_append h.2 hruns
  cases rs with
  | nil =>
    have hr : 0 < r.length := by
      refine List.length_pos_of_ne_nil fun hnil => hX (eq_nil_of_zeroRuns ?_)
      rw [hruns, hnil]
    have hmod : (254 + r.length) % 254 = r.length % 254 := Nat.add_mod_left 254 r.length
    rw [finalClose_eq (r := d ++ r) (by rw [hruns']; rfl), finalClose_eq (r := r) (by rw [hruns]; rfl),
      List.length_append, h.length_full, hmod]
    simp [hr]
  | cons r' rs => simp [finalClose, hruns, hruns']

theorem finalClose_short {d : List Byte} (hd : 0x00#8 ∉ d) (X : List Byte) :
    finalClose (d ++ 0x00#8 :: X) = finalClose X := by
  rw [finalClose, zeroRuns_append_zero hd, List.getLast?_cons_of_ne_nil (zeroRuns_ne_nil X)]
  rfl

/-- The length of a frame, a byte for each raw byte, each full block and the final close; there is at least one
of the latter two, and each full block has 254 raw bytes of its own. -/
theorem length_enc (X : List Byte) :
    (enc X).length = X.length + fullBlocks X + finalClose X ∧ 1 ≤ fullBlocks X + finalClose X ∧
      254 * fullBlocks X ≤ X.length := by
  induction X using block_induction with
  | final n d hb =>
    obtain ⟨hfull, hone⟩ := fullBlocks_finalClose_final hb
    rw [enc_final hb, List.length_cons]
    omega
  | full d X hb hX ih =>
    rw [enc_full hb hX, fullBlocks_full hb, finalClose_full hb hX]
    simp only [List.length_cons, List.length_append, hb.length_full]
    omega
  | short n d X hb hn ih =>
    rw [enc_short hb hn, fullBlocks_short hb hn, finalClose_short hb.2]
    simp only [List.length_cons, List.length_append]
    omega

/-- Settles O52: the upper bound counts one full block for each 254 raw bytes and one close. -/
theorem encodedLengthIsExact : Obligations.EncodedLengthIsExact := by
  unfold Obligations.EncodedLengthIsExact
  intro X
  obtain ⟨hlen, hone, hfull⟩ := length_enc X
  have hclose := finalClose_le_one X
  have hceil := le_mul_ceilDiv (k := 254) (by decide) X.length
  refine ⟨hlen, by omega, ?_⟩
  unfold encBound
  omega

end Sys2Proof.Machine
end

section
/-! ENCODE as a whole: the frame `enc X` is what ENC writes (40_encoder.md R85 to R90). -/

namespace Sys2Proof.Machine

/-! ### A byte sequence somewhere in a space -/

/-- The space holds the sequence `Y` from index `n` on; `Memory.HasBytes` is the case of index 0. -/
def Memory.HoldsAt (m : Memory) (n : Nat) (Y : List Byte) : Prop :=
  ∀ i, i < Y.length → Memory.read m (n + i) = Y[i]?

theorem holdsAt_zero_iff (m : Memory) (Y : List Byte) : Memory.HoldsAt m 0 Y ↔ Memory.HasBytes m Y := by
  simp only [Memory.HoldsAt, Memory.HasBytes, Nat.zero_add]

theorem holdsAt_nil (m : Memory) (n : Nat) : Memory.HoldsAt m n [] := fun i hi => absurd hi (Nat.not_lt_zero i)

theorem Memory.HoldsAt.append {m : Memory} {n : Nat} {Y Z : List Byte} (hY : Memory.HoldsAt m n Y)
    (hZ : Memory.HoldsAt m (n + Y.length) Z) : Memory.HoldsAt m n (Y ++ Z) := by
  intro i hi
  rw [List.length_append] at hi
  obtain hlt | hge := Nat.lt_or_ge i Y.length
  · rw [List.getElem?_append_left hlt]
    exact hY i hlt
  · have hread := hZ (i - Y.length) (by omega)
    rw [show n + Y.length + (i - Y.length) = n + i by omega] at hread
    rw [List.getElem?_append_right hge, hread]

theorem holdsAt_singleton {m : Memory} {n : Nat} {b : Byte} (h : Memory.read m n = some b) :
    Memory.HoldsAt m n [b] := by
  intro i hi
  obtain rfl : i = 0 := Nat.lt_one_iff.mp hi
  exact h

/-- A write outside the sequence leaves it. -/
theorem Memory.HoldsAt.write {m : Memory} {n j : Nat} {Y : List Byte} (h : Memory.HoldsAt m n Y)
    (hj : j < n ∨ n + Y.length ≤ j) (v : Byte) : Memory.HoldsAt (Memory.write m j v) n Y := by
  intro i hi
  rw [read_write_other _ _ (by omega)]
  exact h i hi

/-! ### The output during an operation -/

/-- `ENC.OUT` holds the closed blocks `P`, then the slot of the open block, then its data `d`; the slot and
everything behind the data are as in `out₀`. -/
structure EncOut (out₀ out : Memory) (P d : List Byte) : Prop where
  closed : Memory.HoldsAt out 0 P
  data : Memory.HoldsAt out (P.length + 1) d
  rest : ∀ i, i = P.length ∨ P.length + 1 + d.length ≤ i → Memory.read out i = Memory.read out₀ i

theorem encOut_start (out : Memory) : EncOut out out [] [] := ⟨holdsAt_nil _ _, holdsAt_nil _ _, fun _ _ => rfl⟩

/-- A byte written behind the data lengthens it. -/
theorem EncOut.copy {out₀ out : Memory} {P d : List Byte} (h : EncOut out₀ out P d) (b : Byte) :
    EncOut out₀ (Memory.write out (P.length + 1 + d.length) b) P (d ++ [b]) := by
  refine ⟨h.closed.write (by omega) b, ?_, fun i hi => ?_⟩
  · exact (h.data.write (.inr le_rfl) b).append (holdsAt_singleton (read_write_same _ _ _))
  · rw [List.length_append, List.length_singleton] at hi
    rw [read_write_other _ _ (by omega)]
    exact h.rest i (by omega)

/-- A byte written into the slot closes the block, and the slot of the next one is behind it. -/
theorem EncOut.close {out₀ out : Memory} {P d : List Byte} (h : EncOut out₀ out P d) (n : Byte) :
    EncOut out₀ (Memory.write out P.length n) (P ++ n :: d) [] := by
  refine ⟨?_, holdsAt_nil _ _, fun i hi => ?_⟩
  · have hslot := holdsAt_singleton (read_write_same out P.length n)
    have hdata := h.data.write (j := P.length) (.inl (Nat.lt_succ_self _)) n
    refine (h.closed.write (.inr (Nat.zero_add _).le) n).append ?_
    rw [Nat.zero_add]
    exact hslot.append hdata
  · simp only [List.length_append, List.length_cons, List.length_nil] at hi
    rw [read_write_other _ _ (by omega)]
    exact h.rest i (by omega)

/-! ### What is left of the frame -/

/-- The bytes of the frame that the open block's data `d` and the raw bytes `R` still give: nothing if the
input ends right after a cap close (R85). -/
def encLeft (jc : Bool) (d R : List Byte) : List Byte := if jc = true ∧ R = [] then [] else enc (d ++ R)

theorem encLeft_false (d R : List Byte) : encLeft false d R = enc (d ++ R) := if_neg nofun

theorem encLeft_cons (jc : Bool) (d : List Byte) (b : Byte) (R : List Byte) :
    encLeft jc d (b :: R) = enc (d ++ b :: R) := if_neg nofun

/-- A zero closes the open block (R82). -/
theorem encLeft_zero {n : Byte} {d : List Byte} (h : IsBlock n d) (hn : n ≠ 0xFF#8) (jc : Bool) (R : List Byte) :
    encLeft jc d (0x00#8 :: R) = n :: d ++ encLeft false [] R := by
  rw [encLeft_cons, encLeft_false, enc_short h hn]
  rfl

/-- A data byte joins the open block (R83). -/
theorem encLeft_data (jc : Bool) (d : List Byte) (b : Byte) (R : List Byte) :
    encLeft jc d (b :: R) = encLeft false (d ++ [b]) R := by
  rw [encLeft_cons, encLeft_false, List.append_assoc]
  rfl

/-- The 254th data byte closes the open block, which at the end of the input is the frame's last (R84, R85). -/
theorem encLeft_cap {d : List Byte} {b : Byte} (h : IsBlock 0xFF#8 (d ++ [b])) (jc : Bool) (R : List Byte) :
    encLeft jc d (b :: R) = 0xFF#8 :: (d ++ [b]) ++ encLeft true [] R := by
  rw [encLeft_data, encLeft_false]
  by_cases hR : R = []
  · subst hR
    rw [List.append_nil, enc_final h, encLeft, if_pos ⟨rfl, rfl⟩, List.append_nil]
  · rw [enc_full h hR, encLeft, if_neg (fun hend => hR hend.2)]
    rfl

/-! ### The operation between START and DONE -/

/-- ENC stands inside the operation over `X`: what it has closed, its open block and what it has not read
make the frame. -/
def EncOpen (X : List Byte) (out₀ : Memory) (s : State) : Prop :=
  s.enc.phase = .busy ∧ ∃ P d, EncOut out₀ s.encOut P d ∧ s.enc.slot = P.length ∧ IsBlock s.enc.cnt d ∧
    enc X = P ++ encLeft s.enc.jc d (X.drop s.enc.rd)

/-- ENC has written the whole frame and reports its length. -/
def EncClosed (X : List Byte) (out₀ : Memory) (s : State) : Prop :=
  s.enc.phase = .done ∧ EncOut out₀ s.encOut (enc X) [] ∧ s.enc.outLen = (enc X).length

/-- An operation over `X` that found `out₀` in `ENC.OUT` and was given the capacity `cap`. -/
structure EncRun (X : List Byte) (cap : Nat) (out₀ : Memory) (s : State) : Prop where
  input : Memory.HasBytes s.encIn X
  inLen : s.enc.inLen = X.length
  outCap : s.enc.outCap = cap
  stage : EncOpen X out₀ s ∨ EncClosed X out₀ s

theorem encRun_encBegin {X : List Byte} {cap : Nat} {s : State} (h : Accepts .enc X cap s) :
    EncRun X cap s.encOut (encBegin X.length cap s) := by
  obtain ⟨_, _, _, hin⟩ := h
  have hopen : EncOpen X s.encOut (encBegin X.length cap s) :=
    ⟨rfl, [], [], encOut_start _, rfl, ⟨rfl, List.not_mem_nil⟩, (encLeft_false [] X).symm⟩
  exact ⟨hin, rfl, rfl, .inl hopen⟩

/-- What is left of a raw buffer begins with the byte at the read index. -/
theorem drop_of_read {m : Memory} {X : List Byte} {i : Nat} {b : Byte} (h : Memory.HasBytes m X)
    (hi : i < X.length) (hread : Memory.read m i = some b) : X.drop i = b :: X.drop (i + 1) := by
  obtain rfl : X[i] = b := Option.some.inj ((read_of_hasBytes h hi).symm.trans hread)
  exact List.drop_eq_getElem_cons hi

/-- One more data byte is counted by the length byte, which does not wrap below a full block. -/
theorem isBlock_concat {n : Byte} {d : List Byte} {b : Byte} (h : IsBlock n d) (hn : n.toNat ≤ 254)
    (hb : b ≠ 0x00#8) : IsBlock (n + 1#8) (d ++ [b]) := by
  obtain ⟨hlen, h0⟩ := h
  have hinc : (n + 1#8).toNat = n.toNat + 1 := by bv_omega
  refine ⟨by rw [List.length_append, List.length_singleton, hinc, hlen], ?_⟩
  simp [h0, hb.symm]

section
variable {X : List Byte} {out₀ : Memory} {s t : State}

theorem encOpen_execEncZero (hs : EncInv s) (hopen : EncOpen X out₀ s) (hin : Memory.HasBytes s.encIn X)
    (hlen : s.enc.inLen = X.length) (h : execEncZero s = .next t) : EncOpen X out₀ t := by
  obtain ⟨⟨hb, hrd, hread⟩, _, rfl⟩ := execEncZero_eq_next.mp h
  obtain ⟨hwr, _, hcnt, _⟩ := hs hb
  obtain ⟨_, P, d, hout, hslot, hblock, henc⟩ := hopen
  have hn : s.enc.cnt ≠ 0xFF#8 := by bv_omega
  have hclosed := hout.close s.enc.cnt
  rw [← hslot] at hclosed
  refine ⟨hb, _, [], hclosed, ?_, ⟨rfl, List.not_mem_nil⟩, ?_⟩
  · have hd := hblock.1
    simp only [setEnc_enc, List.length_append, List.length_cons]
    omega
  · rw [henc, drop_of_read hin (hlen ▸ hrd) hread, encLeft_zero hblock hn, List.append_assoc]
    rfl

theorem encOpen_execEncData {b : Byte} (hs : EncInv s) (hopen : EncOpen X out₀ s)
    (hin : Memory.HasBytes s.encIn X) (hlen : s.enc.inLen = X.length) (h : execEncData b s = .next t) :
    EncOpen X out₀ t := by
  obtain ⟨⟨hb, hrd, hread⟩, hb0, _, _, rfl⟩ := execEncData_eq_next.mp h
  obtain ⟨hwr, _, hcnt, _⟩ := hs hb
  obtain ⟨_, P, d, hout, hslot, hblock, henc⟩ := hopen
  have hcopied := hout.copy b
  have hd := hblock.1
  rw [show P.length + 1 + d.length = s.enc.wr by omega] at hcopied
  refine ⟨hb, P, _, hcopied, hslot, isBlock_concat hblock hcnt hb0, ?_⟩
  rw [henc, drop_of_read hin (hlen ▸ hrd) hread, encLeft_data]
  rfl

theorem encOpen_execEncCap {b : Byte} (hs : EncInv s) (hopen : EncOpen X out₀ s)
    (hin : Memory.HasBytes s.encIn X) (hlen : s.enc.inLen = X.length) (h : execEncCap b s = .next t) :
    EncOpen X out₀ t := by
  obtain ⟨⟨hb, hrd, hread⟩, hb0, hcnt, _, _, rfl⟩ := execEncCap_eq_next.mp h
  obtain ⟨hwr, _⟩ := hs hb
  obtain ⟨_, P, d, hout, hslot, hblock, henc⟩ := hopen
  have hd := hblock.1
  have hfull : IsBlock 0xFF#8 (d ++ [b]) := by
    have hinc := isBlock_concat hblock hcnt.le hb0
    rwa [show s.enc.cnt + 1#8 = 0xFF#8 by bv_omega] at hinc
  have hclosed := (hout.copy b).close 0xFF#8
  rw [show P.length + 1 + d.length = s.enc.wr by omega, ← hslot] at hclosed
  refine ⟨hb, _, [], hclosed, ?_, ⟨rfl, List.not_mem_nil⟩, ?_⟩
  · simp only [setEnc_enc, List.length_append, List.length_cons, List.length_nil]
    omega
  · rw [henc, drop_of_read hin (hlen ▸ hrd) hread, encLeft_cap hfull, List.append_assoc]
    rfl

/-- ENC.FINISH writes what is left of the frame: the open block, or nothing right after a cap close. -/
theorem encClosed_execEncFinish (hs : EncInv s) (hopen : EncOpen X out₀ s) (hlen : s.enc.inLen = X.length)
    (h : execEncFinish s = .next t) : EncClosed X out₀ t := by
  obtain ⟨⟨hb, hrd⟩, hcases⟩ := execEncFinish_eq_next.mp h
  obtain ⟨hwr, _, _, _, _, hjc, _⟩ := hs hb
  obtain ⟨_, P, d, hout, hslot, hblock, henc⟩ := hopen
  have hd := hblock.1
  have hend : X.drop s.enc.rd = [] := List.drop_eq_nil_of_le (by omega)
  rw [hend] at henc
  obtain ⟨hj, rfl⟩ | ⟨hj, _, rfl⟩ := hcases
  · obtain ⟨hcnt, _⟩ := hjc hj
    obtain rfl : d = [] := List.length_eq_zero_iff.mp (by omega)
    rw [hj, encLeft, if_pos ⟨rfl, rfl⟩, List.append_nil] at henc
    rw [EncClosed, henc]
    exact ⟨rfl, hout, hslot⟩
  · rw [hj, encLeft_false, List.append_nil, enc_final hblock] at henc
    have hclosed := hout.close s.enc.cnt
    rw [← hslot] at hclosed
    rw [EncClosed, henc]
    refine ⟨rfl, hclosed, ?_⟩
    simp only [setEnc_enc, List.length_append, List.length_cons]
    omega

end

/-- Every step of ENC keeps the operation on its way to the frame. -/
theorem encRun_unitStep {X : List Byte} {cap : Nat} {out₀ : Memory} {s t : State} (hs : EncInv s)
    (hrun : EncRun X cap out₀ s) (h : unitStep .enc s = .next t) : EncRun X cap out₀ t := by
  obtain ⟨hin, hlen, hcap, hstage⟩ := hrun
  obtain ⟨_, hin', _⟩ := encFrame_unitStep h
  obtain ⟨_, hlen', hcap'⟩ := unitStep_enc_progress h
  refine ⟨hin' ▸ hin, hlen'.trans hlen, hcap'.trans hcap, ?_⟩
  obtain hopen | ⟨hdone, _⟩ := hstage
  · obtain h | ⟨b, h⟩ | ⟨b, h⟩ | h := unitStep_enc_cases h
    · exact .inl (encOpen_execEncZero hs hopen hin hlen h)
    · exact .inl (encOpen_execEncData hs hopen hin hlen h)
    · exact .inl (encOpen_execEncCap hs hopen hin hlen h)
    · exact .inr (encClosed_execEncFinish hs hopen hlen h)
  · obtain ⟨i, hi, _⟩ := andThen_eq_next.mp h
    obtain ⟨hb, _⟩ := selectEnc_eq_next.mp hi
    exact absurd (hdone.symm.trans hb) nofun

/-- What a finished operation leaves: the frame as the host's result, and `ENC.OUT` behind it as it was. -/
theorem EncRun.result {X : List Byte} {cap : Nat} {out₀ : Memory} {t : State} (h : EncRun X cap out₀ t)
    (hdone : t.enc.phase = .done) :
    encStatus t = ⟨false, true, false⟩ ∧ HasResult .enc (enc X) t ∧ Memory.AgreeFrom (enc X).length out₀ t.encOut := by
  obtain ⟨hb, _⟩ | ⟨_, hout, houtLen⟩ := h.stage
  · exact absurd (hdone.symm.trans hb) nofun
  · have hstatus : encStatus t = ⟨false, true, false⟩ := by
      rw [encStatus, hdone]
      rfl
    have hlen : resultLen t .enc = some (enc X).length := by
      simp only [resultLen, hstatus, if_true, houtLen]
    refine ⟨hstatus, ⟨hlen, (holdsAt_zero_iff _ _).mp hout.closed⟩, fun i hi => hout.rest i ?_⟩
    rw [List.length_nil]
    omega

/-- Settles O42: START begins the run over `X`, each step keeps it, and it is `DONE` after one step per byte and
ENC.FINISH. -/
theorem encodeProducesTheCanonicalFrame : Obligations.EncodeProducesTheCanonicalFrame := by
  unfold Obligations.EncodeProducesTheCanonicalFrame
  intro s X cap h
  obtain ⟨t, ht, hrun, hdone⟩ := runUnit_enc_done (fun _ _ => encRun_unitStep)
    (encInv_encBegin (startRefusal_of_accepts h)) (encRun_encBegin h) rfl
  have hexec : exec (.encode X.length cap) s = .next t := (exec_encode_of_accepts h).trans ht
  obtain ⟨hstatus, hresult, hbehind⟩ := hrun.result hdone
  exact ⟨t, hexec, hstatus, hresult, hrun.inLen, hrun.outCap, encFrame_exec rfl hexec, hbehind⟩

end Sys2Proof.Machine
end

section
/-! `dec` against `enc`, and which frames it accepts, by induction over the blocks of a frame (41_decoder.md R106
to R109). -/

namespace Sys2Proof.Machine

/-! ### The frame of a raw buffer decodes to it (R108) -/

/-- The blocks ENC makes of a raw buffer are a frame of it. -/
theorem exists_wireFrame_enc (X : List Byte) : ∃ codes, WireFrame (enc X) X codes := by
  induction X using block_induction with
  | final n d hb =>
    rw [enc_final hb]
    exact ⟨_, .final hb⟩
  | full d X hb hX ih =>
    obtain ⟨codes, hframe⟩ := ih
    rw [enc_full hb hX]
    exact ⟨_, .full hb hframe⟩
  | short n d X hb hn ih =>
    obtain ⟨codes, hframe⟩ := ih
    rw [enc_short hb hn]
    exact ⟨_, .short hb hn hframe⟩

/-- Settles O50: what ENC produces is a frame of its input, and `dec` gives what a frame stands for. -/
theorem decodeOfEncodedReturnsTheInput : Obligations.DecodeOfEncodedReturnsTheInput := by
  unfold Obligations.DecodeOfEncodedReturnsTheInput
  exact fun X => dec_eq_some_iff.mpr (exists_wireFrame_enc X)

/-! ### Which frames are accepted (R107) -/

/-- Neither the length byte of a block nor its data holds a zero. -/
theorem WireFrame.zero_free {E X codes : List Byte} (h : WireFrame E X codes) : 0x00#8 ∉ E := by
  induction h with
  | final hb => simp [hb.ne_zero.symm, hb.2]
  | full hb _ ih => simp [hb.2, ih]
  | short hb _ _ ih => simp [hb.ne_zero.symm, hb.2, ih]

/-- A non-zero length byte and as many data bytes as it asks for, none of them zero, are a block. -/
theorem isBlock_take {n : Byte} {R : List Byte} (hn : n ≠ 0x00#8) (hfit : ¬R.length < n.toNat - 1)
    (h0 : 0x00#8 ∉ R.take (n.toNat - 1)) : IsBlock n (R.take (n.toNat - 1)) := by
  refine ⟨?_, h0⟩
  rw [List.length_take]
  bv_omega

/-- A zero-free walk that reaches the end of its bytes has gone from block to block. -/
theorem frame_of_walkCodes {fuel : Nat} {E codes : List Byte} (hE : E ≠ []) (h0 : 0x00#8 ∉ E)
    (h : walkCodes fuel E = some codes) : ∃ X codes', WireFrame E X codes' := by
  induction fuel generalizing E codes with
  | zero =>
    cases E with
    | nil => exact absurd rfl hE
    | cons n R => cases h
  | succ fuel ih =>
    cases E with
    | nil => exact absurd rfl hE
    | cons n R =>
      rw [walkCodes] at h
      split_ifs at h with hn hfit
      obtain ⟨codes, hwalk, -⟩ := Option.map_eq_some_iff.mp h
      have hR : 0x00#8 ∉ R := fun hmem => h0 (List.mem_cons_of_mem n hmem)
      have hb := isBlock_take hn hfit fun hmem => hR (List.mem_of_mem_take hmem)
      rw [← List.take_append_drop (n.toNat - 1) R]
      by_cases hmore : R.drop (n.toNat - 1) = []
      · rw [hmore, List.append_nil]
        exact ⟨_, _, .final hb⟩
      · obtain ⟨X, codes', hframe⟩ := ih hmore (fun hmem => hR (List.mem_of_mem_drop hmem)) hwalk
        by_cases hfull : n = 0xFF#8
        · subst hfull
          exact ⟨_, _, .full hb hframe⟩
        · exact ⟨_, _, .short hb hfull hframe⟩

/-- Settles O53: an accepted input is a frame, which is zero-free and has its walk; a zero-free walk to the end
makes a frame. -/
theorem acceptedFramesAreTheZeroFreeWalks : Obligations.AcceptedFramesAreTheZeroFreeWalks := by
  unfold Obligations.AcceptedFramesAreTheZeroFreeWalks
  intro E
  constructor
  · intro h
    obtain ⟨X, hX⟩ := Option.isSome_iff_exists.mp h
    obtain ⟨codes, hframe⟩ := dec_eq_some_iff.mp hX
    exact ⟨hframe.ne_nil, hframe.zero_free, by simp [hframe.frameCodes]⟩
  · rintro ⟨hE, h0, hwalk⟩
    obtain ⟨codes, hcodes⟩ := Option.isSome_iff_exists.mp hwalk
    obtain ⟨X, codes', hframe⟩ := frame_of_walkCodes hE h0 hcodes
    exact Option.isSome_iff_exists.mpr ⟨X, dec_eq_some_iff.mpr ⟨codes', hframe⟩⟩

/-! ### The length of the raw bytes (R109) -/

/-- Every block gives a raw byte for each byte of it, the length byte's being the implied zero, except the last
block and the full ones. -/
theorem WireFrame.length_eq {E X codes : List Byte} (h : WireFrame E X codes) :
    X.length + 1 + codes.dropLast.count 0xFF#8 = E.length := by
  induction h with
  | final hb => simp
  | full hb hE ih =>
    rw [List.dropLast_cons_of_ne_nil hE.codes_ne_nil, List.count_cons_self]
    simp only [List.length_cons, List.length_append]
    omega
  | short hb hn hE ih =>
    rw [List.dropLast_cons_of_ne_nil hE.codes_ne_nil, List.count_cons_of_ne hn]
    simp only [List.length_cons, List.length_append]
    omega

/-- Settles O54: the count goes over the frame's blocks, and a frame of one byte leaves no raw byte. -/
theorem decodedLengthIsExact : Obligations.DecodedLengthIsExact := by
  unfold Obligations.DecodedLengthIsExact
  intro E X h
  obtain ⟨codes, hframe⟩ := dec_eq_some_iff.mp h
  have hlen := hframe.length_eq
  refine ⟨codes, hframe.frameCodes, hlen, ?_, ?_⟩
  · rintro rfl
    exact hframe.eq_of_nil.1
  · rintro rfl
    rw [List.length_singleton] at hlen
    exact List.length_eq_zero_iff.mp (by omega)

end Sys2Proof.Machine
end

section
/-! The steps and block codes of DEC, one by one, and the turns that run them (41_decoder.md R94 to R104). -/

namespace Sys2Proof.Machine

/-! ### DEC.START and the exception -/

/-- The registers after DEC.START: the empty input differs in the phase and in `FAIL` (R94, R116). -/
theorem decBegin_dec (X : List Byte) (cap : Nat) (s : State) :
    (decBegin X.length cap s).dec = { s.dec with
      phase := if X = [] then .done else .busy, fail := decide (X = []),
      inLen := X.length, outCap := cap, outLen := 0, rd := 0, wr := 0, rem := 0#8, st := .hdr } := by
  cases X <;> rfl

/-- DEC.START writes no output: an empty input leaves no byte to void. -/
theorem decBegin_decOut (len cap : Nat) (s : State) : (decBegin len cap s).decOut = s.decOut := by
  cases len <;> rfl

/-- Settles O16: an accepted START answers `decBegin`. -/
theorem decStartInitialisesDecoder : Obligations.DecStartInitialisesDecoder := by
  unfold Obligations.DecStartInitialisesDecoder
  intro s X cap h
  rw [exec_decStart_eq]
  exact ⟨_, onStart_accepted h _, decFrame_decBegin _ _ s, decBegin_decOut _ _ s, decBegin_dec X cap s⟩

theorem malformedEntry_raiseMalformed (c : Cause) (s : State) : MalformedEntry s (raiseMalformed c s) := by
  refine ⟨raiseMalformed_dec c s, decFrame_raiseMalformed c s, ?_⟩
  rw [raiseMalformed_decOut]
  exact agreeFrom_fill _ _ _

/-! ### The length-byte rows -/

/-- Settles O17: BLK.ILLEGAL answers the exception's entry. -/
theorem blkIllegalRaisesMalformedFrame : Obligations.BlkIllegalRaisesMalformedFrame := by
  unfold Obligations.BlkIllegalRaisesMalformedFrame
  intro s hb hst hrd hread
  exact ⟨_, execBlkIllegal_eq_next.mpr ⟨decHdrReady_iff.mpr ⟨hb, hst, hrd, hread⟩, rfl⟩,
    malformedEntry_raiseMalformed _ s⟩

/-- Settles O18: BLK.EMPTY writes one byte, the implied zero, or none in the final block. -/
theorem blkEmptyEndsItsBlock : Obligations.BlkEmptyEndsItsBlock := by
  unfold Obligations.BlkEmptyEndsItsBlock
  intro s hb hst hrd hread
  have hready := decHdrReady_iff.mpr ⟨hb, hst, hrd, hread⟩
  constructor
  · intro hend
    have h := execBlkEmpty_eq_next.mpr ⟨hready, .inr ⟨hend, rfl⟩⟩
    exact ⟨_, h, by simp [hst], decFrame_execBlkEmpty h, rfl, rfl⟩
  · intro hmore hwr
    have h := execBlkEmpty_eq_next.mpr ⟨hready, .inl ⟨hmore, hwr, rfl⟩⟩
    exact ⟨_, h, by simp [hst], decFrame_execBlkEmpty h, rfl, read_write_same _ _ _,
      fun i hi => read_write_other _ _ hi⟩

theorem openBlock_of_fits {n : Byte} {s : State} (h : s.dec.rd + n.toNat ≤ s.dec.inLen) :
    openBlock n s = s.setDec { s.dec with code := n, rem := n - 1#8, rd := s.dec.rd + 1, st := .data } := by
  rw [openBlock_eq, if_neg (Nat.not_lt.mpr h)]

theorem openBlock_of_overrun {n : Byte} {s : State} (h : s.dec.inLen < s.dec.rd + n.toNat) :
    openBlock n s = raiseMalformed .overrun s := by
  rw [openBlock_eq, if_pos h]

theorem malformedEntry_openBlock {n : Byte} {s : State} (h : s.dec.inLen < s.dec.rd + n.toNat) :
    MalformedEntry s (openBlock n s) := by
  rw [openBlock_of_overrun h]
  exact malformedEntry_raiseMalformed _ s

/-- Settles O19: BLK.SHORT answers `openBlock`. -/
theorem blkShortOpensOrOverruns : Obligations.BlkShortOpensOrOverruns := by
  unfold Obligations.BlkShortOpensOrOverruns
  intro s n hb hst hrd hread hlo hhi
  have h := execBlkShort_eq_next.mpr ⟨decHdrReady_iff.mpr ⟨hb, hst, hrd, hread⟩, ⟨hlo, hhi⟩, rfl⟩
  refine ⟨fun hfit => ?_, fun hover => ⟨_, h, malformedEntry_openBlock hover⟩⟩
  have hrem : (n - 1#8).toNat = n.toNat - 1 := by bv_omega
  rw [openBlock_of_fits hfit] at h
  exact ⟨_, h, rfl, hrem, decFrame_execBlkShort h, rfl, rfl⟩

/-- Settles O20: BLK.FULL answers `openBlock` at 0xFF. -/
theorem blkFullOpensOrOverruns : Obligations.BlkFullOpensOrOverruns := by
  unfold Obligations.BlkFullOpensOrOverruns
  intro s hb hst hrd hread
  have h := execBlkFull_eq_next.mpr ⟨decHdrReady_iff.mpr ⟨hb, hst, hrd, hread⟩, rfl⟩
  refine ⟨fun hfit => ?_, fun hover => ⟨_, h, malformedEntry_openBlock hover⟩⟩
  rw [openBlock_of_fits hfit] at h
  exact ⟨_, h, rfl, decFrame_execBlkFull h, rfl, rfl⟩

/-! ### DEC.DATA and DEC.FINISH -/

/-- Settles O21: the zero byte raises; any other is copied, and at the block's last byte BLOCK_END writes the
implied zero, behind the copied byte, or nothing. -/
theorem decDataCopiesOrRaises : Obligations.DecDataCopiesOrRaises := by
  unfold Obligations.DecDataCopiesOrRaises
  intro s b hb hst hrem hrd hread
  have hready := And.intro hb (And.intro hst hrem)
  have hbyte := And.intro hrd hread
  have hlast (h1 : s.dec.rem.toNat = 1) : s.dec.rem - 1#8 = 0x00#8 := by bv_omega
  refine ⟨fun h0 => ?_, fun h0 hmore hwr => ?_, fun h0 h1 hend hwr => ?_, fun h0 h1 hcode hmore hwr => ?_⟩
  · exact ⟨_, execDecData_eq_next.mpr ⟨hready, b, hbyte, .inl ⟨h0, rfl⟩⟩, malformedEntry_raiseMalformed _ s⟩
  · have hleft : s.dec.rem - 1#8 ≠ 0x00#8 := by bv_omega
    have hdec : (s.dec.rem - 1#8).toNat = s.dec.rem.toNat - 1 := by bv_omega
    have h := execDecData_eq_next.mpr ⟨hready, b, hbyte, .inr ⟨h0, hwr, .inr ⟨hleft, rfl⟩⟩⟩
    exact ⟨_, h, rfl, hdec, decFrame_execDecData h, rfl, read_write_same _ _ _, fun i hi => read_write_other _ _ hi⟩
  · have hnone : ¬(s.dec.code ≠ 0xFF#8 ∧ s.dec.rd + 1 ≠ s.dec.inLen) :=
      fun hz => hend.elim hz.1 hz.2
    have hblock := (blockEnd_eq_next (s := copied b s)).mpr (.inr ⟨hnone, rfl⟩)
    have h := execDecData_eq_next.mpr ⟨hready, b, hbyte, .inr ⟨h0, hwr, .inl ⟨hlast h1, hblock⟩⟩⟩
    exact ⟨_, h, by simp [copied, hlast h1], decFrame_execDecData h, rfl, read_write_same _ _ _,
      fun i hi => read_write_other _ _ hi⟩
  · have hblock := (blockEnd_eq_next (s := copied b s)).mpr (.inl ⟨⟨hcode, hmore⟩, hwr, rfl⟩)
    have h := execDecData_eq_next.mpr
      ⟨hready, b, hbyte, .inr ⟨h0, Nat.lt_of_succ_lt hwr, .inl ⟨hlast h1, hblock⟩⟩⟩
    refine ⟨_, h, by simp [copied, hlast h1], decFrame_execDecData h, rfl, ?_, read_write_same _ _ _,
      fun i hi hi1 => ?_⟩
    · exact (read_write_other _ _ (Nat.lt_succ_self _).ne).trans (read_write_same _ _ _)
    · exact (read_write_other _ _ hi1).trans (read_write_other _ _ hi)

/-- Settles O22: DEC.FINISH writes two registers. -/
theorem decFinishReportsTheLength : Obligations.DecFinishReportsTheLength := by
  unfold Obligations.DecFinishReportsTheLength
  intro s hb hst hrd
  have h := execDecFinish_eq_next.mpr ⟨⟨hb, hst, hrd⟩, rfl⟩
  exact ⟨_, h, rfl, decFrame_execDecFinish h, rfl, rfl⟩

/-! ### The pseudocode common to the length-byte rows (R96, R104) -/

/-- Settles O24: a block of one byte cannot overrun, since its length byte is inside the frame. -/
theorem overrunClauseForOneIsDead : Obligations.OverrunClauseForOneIsDead := by
  unfold Obligations.OverrunClauseForOneIsDead
  intro N p n hp
  by_cases h1 : n = 0x01#8
  · subst h1
    have hfits : overruns N p 0x01#8 = false := Bool.eq_false_iff.mpr (mt overruns_iff.mp (Nat.not_lt.mpr hp))
    rw [hfits, Bool.false_and]
  · rw [bne_iff_ne.mpr h1, Bool.and_true]

/-- For a block with data bytes the common pseudocode is `openBlock`. -/
theorem decHdr_of_two_le {n : Byte} (hn : 2 ≤ n.toNat) (s : State) : decHdr n s = .next (openBlock n s) := by
  have h0 : n ≠ 0x00#8 := by bv_omega
  have h1 : n ≠ 0x01#8 := by bv_omega
  have hrem : (takeHeader n s).dec.rem ≠ 0#8 := by
    rw [takeHeader_eq, setDec_dec]
    bv_omega
  rw [decHdr, if_neg h0, bne_iff_ne.mpr h1, Bool.and_true, openBlock]
  split
  · rfl
  · exact if_neg hrem

/-- Settles O23, by the four classes of a length byte. -/
theorem lengthByteRowsMatchHeaderStep : Obligations.LengthByteRowsMatchHeaderStep := by
  unfold Obligations.LengthByteRowsMatchHeaderStep
  intro s n hready
  obtain ⟨rfl, hrow⟩ | ⟨rfl, hrow⟩ | ⟨rfl, hrow⟩ | ⟨hn, hrow⟩ := decodeLengthByte_cases n <;> rw [hrow]
  · exact execBlkIllegal_eq_next.mpr ⟨hready, rfl⟩
  · have hdead : ¬(overruns s.dec.inLen s.dec.rd 0x01#8 && (0x01#8 : Byte) != 0x01#8) = true := by simp
    have hhdr : decHdr 0x01#8 s = blockEnd (takeHeader 0x01#8 s) := by
      rw [decHdr, if_neg (by decide), if_neg hdead]
      exact if_pos rfl
    rw [hhdr]
    exact if_pos hready
  · rw [decHdr_of_two_le (by decide)]
    exact execBlkFull_eq_next.mpr ⟨hready, rfl⟩
  · rw [decHdr_of_two_le hn.1]
    exact execBlkShort_eq_next.mpr ⟨hready, hn, rfl⟩

/-! ### Turns (R95) -/

/-- Settles O30: the turn runs what DEC selects, and each clause is one case of the selection. -/
theorem decTurnRunsTheSelectedStep : Obligations.DecTurnRunsTheSelectedStep := by
  unfold Obligations.DecTurnRunsTheSelectedStep
  intro s ts hts hb
  have hrun {i : Instr} (hi : selectDec (s.setTurns ts) = .next i) : step s = exec i (s.setTurns ts) :=
    step_of_turn_of_select hts hb hi
  exact ⟨fun hst => hrun (selectDec_eq_next.mpr ⟨hb, .inl ⟨hst, rfl⟩⟩),
    fun hst hrd => hrun (selectDec_eq_next.mpr ⟨hb, .inr (.inl ⟨hst, hrd, rfl⟩)⟩),
    fun n hst hrd hread => hrun (selectDec_eq_next.mpr ⟨hb, .inr (.inr ⟨hst, hrd, n, hread, rfl⟩)⟩)⟩

end Sys2Proof.Machine
end

section
/-! The machine's own steps run DEC as the atomic DECODE does (41_decoder.md R110, 70_reset_and_hazards.md R151). -/

namespace Sys2Proof.Machine

/-- With no turns left and ENC not BUSY, a step of the machine is DEC's turn. -/
theorem step_of_no_turns_enc_not_busy {s : State} (hts : s.turns = []) (henc : s.enc.phase ≠ .busy) :
    step s = unitTurn .dec s := by
  rw [step, hts]
  exact if_neg henc

/-- The machine's steps are those of DEC's run, before and after DEC is `DONE`. -/
theorem core_run_eq_runUnit_dec (k : Nat) {s : State} (hts : s.turns = []) (henc : s.enc.phase ≠ .busy) :
    (Host.Core.run Sys2Proof.core k s : Result) = runUnit .dec k s := by
  induction k generalizing s with
  | zero => rfl
  | succ k ih =>
    rw [core_run_succ, step_of_no_turns_enc_not_busy hts henc]
    by_cases hb : s.phaseOf .dec = .busy
    · rw [unitTurn_busy hb, runUnit_succ_busy k hb]
      cases ha : unitStep .dec s with
      | next a =>
        obtain ⟨henc', _, _, _, hturns, _⟩ := decFrame_unitStep ha
        exact ih (hturns.trans hts) (by rwa [henc'])
      | fault _ => rfl
      | refused _ => rfl
    · rw [unitTurn_not_busy hb, runUnit_not_busy _ hb]
      exact (ih hts henc).trans (runUnit_not_busy k hb)

/-- Settles O46: the first step is the START, and the steps after it are those of the atomic DECODE's run. -/
theorem steppedDecodeEqualsAtomicDecode : Obligations.SteppedDecodeEqualsAtomicDecode := by
  unfold Obligations.SteppedDecodeEqualsAtomicDecode
  intro s E cap hacc henc hts
  have h := accepts_setTurns hacc []
  have hstart : step s = .next (decBegin E.length cap (s.setTurns [])) := by
    rw [step_of_turns_cons hts, takeTurn_start, decoded_start_dec, andThen_next, exec_decStart_eq,
      onStart_accepted h]
  obtain ⟨henc', _, _, _, hturns, _⟩ := decFrame_decBegin E.length cap (s.setTurns [])
  rw [core_run_succ_of_next _ hstart, exec_decode_of_accepts h]
  exact core_run_eq_runUnit_dec _ hturns (by rwa [henc'])

end Sys2Proof.Machine
end

section
/-! DECODE as a whole: `dec E` is what DEC writes, or DEC fails with it (41_decoder.md R95 to R106, R110). -/

namespace Sys2Proof.Machine

/-! ### `dec`, a byte at a time -/

/-- What the bytes `R` still give between two blocks: at the end of the input nothing, and DEC is done. -/
def decNext (R : List Byte) : Option (List Byte) := if R = [] then some [] else dec R

/-- What the bytes `R` behind a block of length byte `n` give, with the block's implied zero (R101). -/
def decClose (n : Byte) (R : List Byte) : Option (List Byte) :=
  if n ≠ 0xFF#8 ∧ R ≠ [] then (decNext R).map (0x00#8 :: ·) else decNext R

/-- What the bytes `R` give inside a block of length byte `n` with `k` data bytes to copy (R102). -/
def decBody (n : Byte) : Nat → List Byte → Option (List Byte)
  | 0, R => decClose n R
  | _ + 1, [] => none
  | k + 1, b :: R => if b = 0x00#8 then none else (decBody n k R).map (b :: ·)

theorem decNext_nil : decNext [] = some [] := if_pos rfl

theorem decNext_of_ne_nil {R : List Byte} (h : R ≠ []) : decNext R = dec R := if_neg h

theorem decClose_nil (n : Byte) : decClose n [] = some [] := if_neg fun h => h.2 rfl

theorem decClose_full (R : List Byte) : decClose 0xFF#8 R = decNext R := if_neg fun h => h.1 rfl

theorem decClose_short {n : Byte} (hn : n ≠ 0xFF#8) {R : List Byte} (hR : R ≠ []) :
    decClose n R = (dec R).map (0x00#8 :: ·) := by
  rw [decClose, if_pos ⟨hn, hR⟩, decNext_of_ne_nil hR]

theorem decBody_zero_byte (n : Byte) (k : Nat) (R : List Byte) : decBody n (k + 1) (0x00#8 :: R) = none := if_pos rfl

theorem decBody_data_byte (n : Byte) (k : Nat) {b : Byte} (hb : b ≠ 0x00#8) (R : List Byte) :
    decBody n (k + 1) (b :: R) = (decBody n k R).map (b :: ·) := if_neg hb

/-- The data bytes of a block are copied if none of them is zero. -/
theorem decBody_eq (n : Byte) {k : Nat} {R : List Byte} (hk : k ≤ R.length) :
    decBody n k R = if 0x00#8 ∈ R.take k then none else (decClose n (R.drop k)).map (R.take k ++ ·) := by
  induction k generalizing R with
  | zero => simp [decBody]
  | succ k ih =>
    cases R with
    | nil => exact absurd hk (Nat.not_succ_le_zero k)
    | cons b R =>
      by_cases hb : b = 0x00#8
      · subst hb
        rw [decBody_zero_byte, List.take_succ_cons, if_pos List.mem_cons_self]
      · rw [decBody_data_byte n k hb, ih (Nat.le_of_succ_le_succ hk), List.take_succ_cons, List.drop_succ_cons]
        have hmem : 0x00#8 ∈ b :: R.take k ↔ 0x00#8 ∈ R.take k := by simp [Ne.symm hb]
        simp only [hmem]
        split
        · rfl
        · rw [Option.map_map]
          rfl

/-- Fuel beyond the length of the frame changes nothing. -/
theorem decBlocks_fuel {fuel : Nat} {E : List Byte} (h : E.length ≤ fuel) : decBlocks fuel E = dec E := by
  refine Option.ext fun X => ?_
  constructor
  · exact fun hX => dec_eq_some_iff.mpr (frame_of_decBlocks hX)
  · intro hX
    obtain ⟨_, hframe⟩ := dec_eq_some_iff.mp hX
    exact (hframe.decBlocks_walkCodes h).1

theorem dec_zero_cons (R : List Byte) : dec (0x00#8 :: R) = none := by
  rw [dec, List.length_cons, decBlocks, if_pos rfl]

/-- A block that goes beyond the end of the input is malformed (R99, R100). -/
theorem dec_of_overrun {n : Byte} {R : List Byte} (h : R.length < n.toNat - 1) : dec (n :: R) = none := by
  have hn : n ≠ 0x00#8 := by bv_omega
  rw [dec, List.length_cons, decBlocks, if_neg hn, if_pos h]

/-- A length byte that fits opens its block (R96). -/
theorem dec_of_fits {n : Byte} {R : List Byte} (hn : n ≠ 0x00#8) (h : n.toNat - 1 ≤ R.length) :
    dec (n :: R) = decBody n (n.toNat - 1) R := by
  have hfuel : decBlocks R.length (R.drop (n.toNat - 1)) = dec (R.drop (n.toNat - 1)) :=
    decBlocks_fuel (by rw [List.length_drop]; omega)
  rw [decBody_eq n h, dec, List.length_cons, decBlocks, if_neg hn, if_neg (Nat.not_lt.mpr h)]
  dsimp only
  rw [hfuel]
  split
  · rfl
  · by_cases hmore : R.drop (n.toNat - 1) = []
    · rw [if_pos hmore, hmore, decClose_nil, Option.map_some, List.append_nil]
    · by_cases hfull : n = 0xFF#8
      · subst hfull
        rw [if_neg hmore, if_pos rfl, decClose_full, decNext_of_ne_nil hmore]
      · rw [if_neg hmore, if_neg hfull, decClose_short hfull hmore, Option.map_map]
        rfl

/-! ### The output during an operation -/

/-- `DEC.OUT` holds the bytes `P`, `wr` is behind them, and there everything is as in `out₀`; the frame `E`
decodes to `P` and then what is `left`, or fails with it. -/
def DecOut (E : List Byte) (out₀ out : Memory) (wr : Nat) (left : Option (List Byte)) : Prop :=
  ∃ P, Memory.HoldsAt out 0 P ∧ Memory.AgreeFrom P.length out₀ out ∧ wr = P.length ∧ dec E = left.map (P ++ ·)

theorem decOut_start {E : List Byte} (hE : E ≠ []) (out : Memory) : DecOut E out out 0 (decNext E) :=
  ⟨[], holdsAt_nil _ _, Memory.AgreeFrom.refl _ _, rfl, by simp [decNext_of_ne_nil hE]⟩

/-- A byte that is left, written at `wr`, is left no more (R50). -/
theorem DecOut.emit {E : List Byte} {out₀ out : Memory} {wr : Nat} {b : Byte} {left : Option (List Byte)}
    (h : DecOut E out₀ out wr (left.map (b :: ·))) : DecOut E out₀ (Memory.write out wr b) (wr + 1) left := by
  obtain ⟨P, hheld, hrest, rfl, hdec⟩ := h
  refine ⟨P ++ [b], ?_, fun i hi => ?_, by simp, ?_⟩
  · refine (hheld.write (.inr (Nat.zero_add _).le) b).append (holdsAt_singleton ?_)
    rw [Nat.zero_add, read_write_same]
  · rw [List.length_append, List.length_singleton] at hi
    rw [read_write_other _ _ (Nat.ne_of_gt hi)]
    exact hrest i (Nat.le_of_succ_le hi)
  · rw [hdec, Option.map_map]
    simp [Function.comp_def]

theorem DecOut.dec_eq_none {E : List Byte} {out₀ out : Memory} {wr : Nat} (h : DecOut E out₀ out wr none) :
    dec E = none := by
  obtain ⟨_, _, _, _, hdec⟩ := h
  exact hdec

/-! ### The operation between START and DONE -/

/-- What DEC still gives from the bytes `R` it has not read. -/
def decLeft (d : DecRegs) (R : List Byte) : Option (List Byte) :=
  match d.st with
  | .hdr => decNext R
  | .data => decBody d.code d.rem.toNat R

theorem decLeft_hdr {d : DecRegs} (h : d.st = .hdr) (R : List Byte) : decLeft d R = decNext R := by
  rw [decLeft, h]

theorem decLeft_data {d : DecRegs} (h : d.st = .data) (R : List Byte) :
    decLeft d R = decBody d.code d.rem.toNat R := by
  rw [decLeft, h]

/-- DEC stands inside the operation over `E`. -/
def DecOpen (E : List Byte) (out₀ : Memory) (s : State) : Prop :=
  s.dec.phase = .busy ∧ DecOut E out₀ s.decOut s.dec.wr (decLeft s.dec (E.drop s.dec.rd))

/-- DEC has written all of `dec E` and reports its length. -/
def DecClosed (E : List Byte) (out₀ : Memory) (s : State) : Prop :=
  s.dec.phase = .done ∧ s.dec.fail = false ∧ DecOut E out₀ s.decOut s.dec.outLen (some [])

/-- DEC has failed, and so has `dec E`. -/
def DecFailed (E : List Byte) (s : State) : Prop :=
  s.dec.phase = .done ∧ s.dec.fail = true ∧ s.dec.outLen = 0 ∧ dec E = none

/-- An operation over `E` that found `out₀` in `DEC.OUT` and was given the capacity `cap`. -/
structure DecRun (E : List Byte) (cap : Nat) (out₀ : Memory) (s : State) : Prop where
  input : Memory.HasBytes s.decIn E
  inLen : s.dec.inLen = E.length
  outCap : s.dec.outCap = cap
  below : Memory.AgreeFrom (E.length - 1) out₀ s.decOut
  stage : DecOpen E out₀ s ∨ DecClosed E out₀ s ∨ DecFailed E s

theorem decRun_decBegin {E : List Byte} {cap : Nat} {s : State} (h : Accepts .dec E cap s) :
    DecRun E cap s.decOut (decBegin E.length cap s) := by
  obtain ⟨_, _, _, hin⟩ := h
  obtain ⟨_, _, _, hin', _⟩ := decFrame_decBegin E.length cap s
  refine ⟨hin' ▸ hin, by rw [decBegin_dec], by rw [decBegin_dec], ?_, ?_⟩
  · rw [decBegin_decOut]
    exact Memory.AgreeFrom.refl _ _
  · by_cases hE : E = []
    · subst hE
      exact .inr (.inr ⟨rfl, rfl, rfl, rfl⟩)
    · refine .inl ⟨by rw [decBegin_dec, if_neg hE], ?_⟩
      rw [decBegin_decOut, decBegin_dec]
      exact decOut_start hE _

/-! No step of DEC writes the arguments of START (R30, R31). -/

theorem openBlock_args (n : Byte) (s : State) :
    (openBlock n s).dec.inLen = s.dec.inLen ∧ (openBlock n s).dec.outCap = s.dec.outCap := by
  rw [openBlock_eq]
  split
  · exact ⟨rfl, rfl⟩
  · exact ⟨rfl, rfl⟩

theorem blockEnd_args {s t : State} (h : blockEnd s = .next t) :
    t.dec.inLen = s.dec.inLen ∧ t.dec.outCap = s.dec.outCap := by
  obtain ⟨_, _, rfl⟩ | ⟨_, rfl⟩ := blockEnd_eq_next.mp h
  · exact ⟨rfl, rfl⟩
  · exact ⟨rfl, rfl⟩

theorem unitStep_dec_args {s t : State} (h : unitStep .dec s = .next t) :
    t.dec.inLen = s.dec.inLen ∧ t.dec.outCap = s.dec.outCap := by
  obtain h | h | ⟨n, h⟩ | h | h | h := unitStep_dec_cases h
  · obtain ⟨_, rfl⟩ := execBlkIllegal_eq_next.mp h
    exact ⟨rfl, rfl⟩
  · obtain ⟨_, hend⟩ := blockEnd_of_execBlkEmpty h
    exact blockEnd_args (s := takeHeader 0x01#8 s) hend
  · obtain ⟨_, _, rfl⟩ := execBlkShort_eq_next.mp h
    exact openBlock_args n s
  · obtain ⟨_, rfl⟩ := execBlkFull_eq_next.mp h
    exact openBlock_args _ s
  · obtain ⟨_, b, _, ⟨_, rfl⟩ | ⟨_, _, ⟨_, hend⟩ | ⟨_, rfl⟩⟩⟩ := execDecData_eq_next.mp h
    · exact ⟨rfl, rfl⟩
    · exact blockEnd_args (s := copied b s) hend
    · exact ⟨rfl, rfl⟩
  · obtain ⟨_, rfl⟩ := execDecFinish_eq_next.mp h
    exact ⟨rfl, rfl⟩

section
variable {E : List Byte} {out₀ : Memory} {s t : State}

theorem decFailed_raiseMalformed (c : Cause) (h : DecOut E out₀ s.decOut s.dec.wr none) :
    DecFailed E (raiseMalformed c s) := ⟨rfl, rfl, rfl, h.dec_eq_none⟩

/-- BLOCK_END writes the implied zero that `decClose` gives, and DEC stands between blocks (R101). -/
theorem decOpen_blockEnd (hb : s.dec.phase = .busy) (hin : s.dec.inLen = E.length) (hrd : s.dec.rd ≤ s.dec.inLen)
    (hout : DecOut E out₀ s.decOut s.dec.wr (decClose s.dec.code (E.drop s.dec.rd))) (h : blockEnd s = .next t) :
    DecOpen E out₀ t := by
  have hmore : E.drop s.dec.rd ≠ [] ↔ s.dec.rd ≠ s.dec.inLen := by
    rw [ne_eq, List.drop_eq_nil_iff]
    omega
  simp only [decClose, hmore] at hout
  obtain ⟨hz, _, rfl⟩ | ⟨hz, rfl⟩ := blockEnd_eq_next.mp h
  · rw [if_pos hz] at hout
    exact ⟨hb, hout.emit⟩
  · rw [if_neg hz] at hout
    exact ⟨hb, hout⟩

/-- What is left where DEC reads a length byte. -/
theorem DecOpen.at_lengthByte {n : Byte} (hopen : DecOpen E out₀ s) (hin : Memory.HasBytes s.decIn E)
    (hlen : s.dec.inLen = E.length) (hready : decHdrReady n s = true) :
    DecOut E out₀ s.decOut s.dec.wr (dec (n :: E.drop (s.dec.rd + 1))) := by
  obtain ⟨_, hst, hrd, hread⟩ := decHdrReady_iff.mp hready
  obtain ⟨_, hout⟩ := hopen
  rwa [decLeft_hdr hst, drop_of_read hin (hlen ▸ hrd) hread, decNext_of_ne_nil (List.cons_ne_nil _ _)] at hout

theorem decFailed_execBlkIllegal (hopen : DecOpen E out₀ s) (hin : Memory.HasBytes s.decIn E)
    (hlen : s.dec.inLen = E.length) (h : execBlkIllegal s = .next t) : DecFailed E t := by
  obtain ⟨hready, rfl⟩ := execBlkIllegal_eq_next.mp h
  have hout := hopen.at_lengthByte hin hlen hready
  rw [dec_zero_cons] at hout
  exact decFailed_raiseMalformed _ hout

theorem decOpen_execBlkEmpty (hopen : DecOpen E out₀ s) (hin : Memory.HasBytes s.decIn E)
    (hlen : s.dec.inLen = E.length) (h : execBlkEmpty s = .next t) : DecOpen E out₀ t := by
  obtain ⟨hready, hend⟩ := blockEnd_of_execBlkEmpty h
  obtain ⟨hb, _, hrd, _⟩ := decHdrReady_iff.mp hready
  have hout := hopen.at_lengthByte hin hlen hready
  rw [dec_of_fits (by decide) (Nat.zero_le _)] at hout
  exact decOpen_blockEnd (s := takeHeader 0x01#8 s) hb hlen hrd hout hend

/-- The header of a block with data bytes opens it, or fails where `dec` does. -/
theorem decOpen_or_failed_openBlock {n : Byte} (hopen : DecOpen E out₀ s) (hin : Memory.HasBytes s.decIn E)
    (hlen : s.dec.inLen = E.length) (hn : 2 ≤ n.toNat) (hready : decHdrReady n s = true) :
    DecOpen E out₀ (openBlock n s) ∨ DecFailed E (openBlock n s) := by
  obtain ⟨hb, _, hrd, _⟩ := decHdrReady_iff.mp hready
  have hout := hopen.at_lengthByte hin hlen hready
  have hdrop : (E.drop (s.dec.rd + 1)).length = E.length - (s.dec.rd + 1) := List.length_drop
  obtain hover | hfit := Nat.lt_or_ge s.dec.inLen (s.dec.rd + n.toNat)
  · rw [dec_of_overrun (by omega)] at hout
    rw [openBlock_of_overrun hover]
    exact .inr (decFailed_raiseMalformed _ hout)
  · have hrem : (n - 1#8).toNat = n.toNat - 1 := by bv_omega
    rw [dec_of_fits (by bv_omega) (by omega), ← hrem] at hout
    rw [openBlock_of_fits hfit]
    exact .inl ⟨hb, hout⟩

theorem decOpen_or_failed_execDecData (hopen : DecOpen E out₀ s) (hin : Memory.HasBytes s.decIn E)
    (hlen : s.dec.inLen = E.length) (h : execDecData s = .next t) : DecOpen E out₀ t ∨ DecFailed E t := by
  obtain ⟨⟨hb, hst, hrem⟩, b, ⟨hrd, hread⟩, hcases⟩ := execDecData_eq_next.mp h
  obtain ⟨_, hout⟩ := hopen
  have hdec : s.dec.rem.toNat = (s.dec.rem - 1#8).toNat + 1 := by bv_omega
  rw [decLeft_data hst, drop_of_read hin (hlen ▸ hrd) hread, hdec] at hout
  obtain ⟨rfl, rfl⟩ | ⟨h0, _, hcopy⟩ := hcases
  · rw [decBody_zero_byte] at hout
    exact .inr (decFailed_raiseMalformed _ hout)
  · rw [decBody_data_byte _ _ h0] at hout
    have hcopied := hout.emit
    obtain ⟨hlast, hend⟩ | ⟨_, rfl⟩ := hcopy
    · rw [hlast] at hcopied
      exact .inl (decOpen_blockEnd (s := copied b s) hb hlen hrd hcopied hend)
    · refine .inl ⟨hb, ?_⟩
      rw [decLeft_data (d := (copied b s).dec) hst]
      exact hcopied

/-- DEC.FINISH stands at the end of the input, where nothing is left. -/
theorem decClosed_execDecFinish (hs : DecInv s) (hopen : DecOpen E out₀ s) (hlen : s.dec.inLen = E.length)
    (h : execDecFinish s = .next t) : DecClosed E out₀ t := by
  obtain ⟨⟨hb, hst, hrd⟩, rfl⟩ := execDecFinish_eq_next.mp h
  have hfail := dec_fail_of_busy hs hb
  obtain ⟨_, hout⟩ := hopen
  rw [decLeft_hdr hst, List.drop_eq_nil_of_le (by omega), decNext_nil] at hout
  exact ⟨rfl, hfail, hout⟩

end

/-- Every step of DEC keeps the operation on its way to `dec E`. -/
theorem decRun_unitStep {E : List Byte} {cap : Nat} {out₀ : Memory} {s t : State} (hs : DecInv s)
    (hrun : DecRun E cap out₀ s) (h : unitStep .dec s = .next t) : DecRun E cap out₀ t := by
  obtain ⟨i, hi, _⟩ := andThen_eq_next.mp h
  obtain ⟨hb, _⟩ := selectDec_eq_next.mp hi
  obtain ⟨hin, hlen, hcap, hbelow, hstage⟩ := hrun
  obtain ⟨_, _, _, hin', _⟩ := decFrame_unitStep h
  obtain ⟨hlen', hcap'⟩ := unitStep_dec_args h
  obtain ⟨hwrites, _⟩ := decWritesBelow_unitStep hs hb h
  have hopen : DecOpen E out₀ s := by
    obtain hopen | ⟨hdone, _⟩ | ⟨hdone, _⟩ := hstage
    · exact hopen
    · exact absurd (hdone.symm.trans hb) nofun
    · exact absurd (hdone.symm.trans hb) nofun
  refine ⟨hin' ▸ hin, hlen'.trans hlen, hcap'.trans hcap, hbelow.trans (hlen ▸ hwrites), ?_⟩
  obtain h | h | ⟨n, h⟩ | h | h | h := unitStep_dec_cases h
  · exact .inr (.inr (decFailed_execBlkIllegal hopen hin hlen h))
  · exact .inl (decOpen_execBlkEmpty hopen hin hlen h)
  · obtain ⟨hready, ⟨hn, _⟩, rfl⟩ := execBlkShort_eq_next.mp h
    exact (decOpen_or_failed_openBlock hopen hin hlen hn hready).imp_right .inr
  · obtain ⟨hready, rfl⟩ := execBlkFull_eq_next.mp h
    exact (decOpen_or_failed_openBlock hopen hin hlen (by decide) hready).imp_right .inr
  · exact (decOpen_or_failed_execDecData hopen hin hlen h).imp_right .inr
  · exact .inr (.inl (decClosed_execDecFinish hs hopen hlen h))

/-- An accepted DECODE answers, with DEC `DONE` and its operation run. -/
theorem exec_decode_done {E : List Byte} {cap : Nat} {s : State} (h : Accepts .dec E cap s) :
    ∃ t, exec (.decode E.length cap) s = .next t ∧ t.dec.phase = .done ∧ DecRun E cap s.decOut t := by
  have hinv := decInv_decBegin (startRefusal_of_accepts h)
  have hbegin := decRun_decBegin h
  have hkeeps (a b : State) (ha : DecInv a ∧ DecRun E cap s.decOut a) (hab : unitStep .dec a = .next b) :
      DecInv b ∧ DecRun E cap s.decOut b := ⟨decInv_unitStep ha.1 hab, decRun_unitStep ha.1 ha.2 hab⟩
  have hdone : ∃ t, runUnit .dec (E.length + 1) (decBegin E.length cap s) = .next t ∧ t.dec.phase = .done := by
    by_cases hE : E = []
    · subst hE
      exact ⟨_, runUnit_not_busy _ nofun, rfl⟩
    · have hregs := decBegin_dec E cap s
      rw [if_neg hE] at hregs
      obtain ⟨t, ht, _, hdone⟩ := runUnit_dec_done hinv (by rw [hregs])
      simp only [hregs, Nat.sub_zero] at ht
      exact ⟨t, ht, hdone⟩
  obtain ⟨t, ht, hdone⟩ := hdone
  exact ⟨t, (exec_decode_of_accepts h).trans ht, hdone, (runUnit_keeps hkeeps _ ⟨hinv, hbegin⟩ ht).2⟩

/-- What a finished operation leaves where `dec E` is `X`. -/
theorem DecClosed.result {E X : List Byte} {out₀ : Memory} {t : State} (h : DecClosed E out₀ t)
    (hX : dec E = some X) :
    decStatus t = ⟨false, true, false⟩ ∧ HasResult .dec X t ∧ Memory.AgreeFrom X.length out₀ t.decOut := by
  obtain ⟨hdone, hfail, P, hheld, hrest, hlen, hdec⟩ := h
  obtain rfl : P = X := by simpa [hX, eq_comm] using hdec
  have hstatus : decStatus t = ⟨false, true, false⟩ := by
    rw [decStatus, hdone, hfail]
    rfl
  exact ⟨hstatus, ⟨by simp [resultLen, hstatus, hlen], (holdsAt_zero_iff _ _).mp hheld⟩, hrest⟩

/-- Settles O43: START begins the run over `E`, each step keeps it, and where it is `DONE` it has written `dec E`
or failed with it. -/
theorem decodeProducesTheRawBytesOrFails : Obligations.DecodeProducesTheRawBytesOrFails := by
  unfold Obligations.DecodeProducesTheRawBytesOrFails
  intro s E cap h
  obtain ⟨t, ht, hdone, hrun⟩ := exec_decode_done h
  refine ⟨t, ht, hrun.inLen, hrun.outCap, decFrame_exec rfl ht, ?_⟩
  obtain ⟨hb, _⟩ | hclosed | ⟨_, hfail, hlen, hnone⟩ := hrun.stage
  · exact absurd (hdone.symm.trans hb) nofun
  · refine ⟨fun X hX => hclosed.result hX, fun hnone => ?_⟩
    obtain ⟨_, _, P, _, _, _, hdec⟩ := hclosed
    exact absurd (hnone.symm.trans hdec) nofun
  · refine ⟨fun X hX => absurd (hnone.symm.trans hX) nofun, fun _ => ⟨?_, hlen, hrun.below⟩⟩
    rw [decStatus, hdone, hfail]
    rfl

end Sys2Proof.Machine
end

section
/-! The one exception, refused STARTs, and the two units as independent agents (60_exceptions.md R117, R120, R124,
R133, R135). -/

namespace Sys2Proof.Machine

/-! ### `raise MalformedFrame` (R117, R124) -/

theorem read_raiseMalformed_of_lt (c : Cause) {s : State} {i : Nat} (h : i < s.dec.inLen - 1) :
    Memory.read (raiseMalformed c s).decOut i = some (Config.freeByte (s.draws + i)) := by
  rw [raiseMalformed_decOut, read_fill, if_pos h]

/-- Settles O25: the cause is not used, and the entry fills the voided bytes with free values. -/
theorem malformedFrameEntryVoidsThePrefix : Obligations.MalformedFrameEntryVoidsThePrefix := by
  unfold Obligations.MalformedFrameEntryVoidsThePrefix
  exact fun c c' s => ⟨raiseMalformed_cause c c' s, malformedEntry_raiseMalformed c s,
    fun i hi => read_raiseMalformed_of_lt c hi⟩

/-! ### A START outside its ranges (R51, R52, R120) -/

theorem startRefusal_of_lengthAboveMax {u : UnitId} {len cap : Nat} {s : State} (hlen : lengthOk s len = false) :
    startRefusal u len cap s = some .lengthAboveMax := by
  simp [startRefusal, hlen]

theorem startRefusal_of_undersized {u : UnitId} {len cap : Nat} {s : State} (hlen : lengthOk s len = true)
    (hcap : cap < neededCap u len) : startRefusal u len cap s = some .outputUndersized := by
  simp [startRefusal, hlen, hcap]

theorem exec_enc_of_refusal {len cap : Nat} {s : State} {r : Refusal} (hb : s.enc.phase ≠ .busy)
    (h : startRefusal .enc len cap s = some r) :
    exec (.encStart len cap) s = .refused r ∧ exec (.encode len cap) s = .refused r := by
  rw [exec_encStart_eq, exec_encode_eq]
  exact ⟨onStart_of_refusal h hb _, onStart_of_refusal h hb _⟩

theorem exec_dec_of_refusal {len cap : Nat} {s : State} {r : Refusal} (hb : s.dec.phase ≠ .busy)
    (h : startRefusal .dec len cap s = some r) :
    exec (.decStart len cap) s = .refused r ∧ exec (.decode len cap) s = .refused r := by
  rw [exec_decStart_eq, exec_decode_eq]
  exact ⟨onStart_of_refusal h hb _, onStart_of_refusal h hb _⟩

/-- Settles O27: the length is tested first and the capacity next, for a START and an operation alike. -/
theorem undersizedStartIsRefused : Obligations.UndersizedStartIsRefused := by
  unfold Obligations.UndersizedStartIsRefused
  exact fun s len cap =>
    ⟨fun hb hlen => exec_enc_of_refusal hb (startRefusal_of_lengthAboveMax hlen),
      fun hb hlen => exec_dec_of_refusal hb (startRefusal_of_lengthAboveMax hlen),
      fun hb hlen hcap => exec_enc_of_refusal hb (startRefusal_of_undersized hlen hcap),
      fun hb hlen hcap => exec_dec_of_refusal hb (startRefusal_of_undersized hlen hcap)⟩

/-! ### No turns left (R135, R142) -/

theorem setTurns_of_turns_eq {s : State} {ts : List Turn} (h : s.turns = ts) : s.setTurns ts = s := by
  subst h
  rfl

/-- The one turn of a unit given to a state that has none is taken on that state. -/
theorem step_setTurns_unit {s : State} (hts : s.turns = []) (u : UnitId) :
    step (s.setTurns [.unit u]) = unitTurn u s := by
  rw [step_of_turns_unit (setTurns_turns s _), setTurns_setTurns, setTurns_of_turns_eq hts]

/-- Settles O32: without turns ENC's turn is taken if ENC is BUSY, else DEC's, which does nothing unless DEC is
BUSY. -/
theorem unitsRunOnWithoutTurns : Obligations.UnitsRunOnWithoutTurns := by
  unfold Obligations.UnitsRunOnWithoutTurns
  intro s hts
  refine ⟨fun henc => ?_, fun henc _ => ?_, fun henc hdec => ?_⟩
  · rw [step_of_no_turns_enc_busy hts henc, step_setTurns_unit hts, unitTurn_busy (u := .enc) henc]
  · rw [step_of_no_turns_enc_not_busy hts henc, step_setTurns_unit hts]
  · rw [step_of_no_turns_enc_not_busy hts henc, unitTurn_not_busy (u := .dec) hdec]

end Sys2Proof.Machine
end

section
/-! The moves of the two units commute: each reads and writes its own half of the state (60_exceptions.md R133). -/

namespace Sys2Proof.Machine

/-! ### A turn of a unit and its frame -/

/-- A turn that answers is a step of the unit, or the unit is not BUSY and nothing changes (R135). -/
theorem unitTurn_next {u : UnitId} {s t : State} (h : unitTurn u s = .next t) :
    (s.phaseOf u = .busy ∧ unitStep u s = .next t) ∨ (s.phaseOf u ≠ .busy ∧ t = s) := by
  by_cases hb : s.phaseOf u = .busy
  · exact .inl ⟨hb, unitTurn_busy hb ▸ h⟩
  · rw [unitTurn_not_busy hb] at h
    cases h
    exact .inr ⟨hb, rfl⟩

theorem encFrame_unitTurn {s a : State} (h : unitTurn .enc s = .next a) : EncFrame s a := by
  obtain ⟨_, hstep⟩ | ⟨_, rfl⟩ := unitTurn_next h
  · exact encFrame_unitStep hstep
  · exact EncFrame.refl _

theorem decFrame_unitTurn {s b : State} (h : unitTurn .dec s = .next b) : DecFrame s b := by
  obtain ⟨_, hstep⟩ | ⟨_, rfl⟩ := unitTurn_next h
  · exact decFrame_unitStep hstep
  · exact DecFrame.refl _

/-! ### The two halves of a state -/

/-- The state with ENC's half of `a` (and its turns and `MAX_LEN`, which no unit writes) and DEC's half of `b`.
The count of draws goes with DEC, the only unit whose steps draw free values. -/
def joinHalves (a b : State) : State :=
  { a with dec := b.dec, decIn := b.decIn, decOut := b.decOut, draws := b.draws }

theorem joinHalves_of_encFrame {s a : State} (h : EncFrame s a) : joinHalves a s = a := by
  obtain ⟨hdec, _, hdecIn, hdecOut, _, hdraws, _⟩ := h
  rw [joinHalves, ← hdec, ← hdecIn, ← hdecOut, ← hdraws]

theorem joinHalves_of_decFrame {s b : State} (h : DecFrame s b) : joinHalves s b = b := by
  obtain ⟨henc, hencIn, hencOut, _, hturns, hmaxLen⟩ := h
  cases s
  cases b
  subst henc hencIn hencOut hturns hmaxLen
  rfl

/-! ### A step of ENC does not depend on DEC's half -/

section
variable {s a : State} (b : State)

theorem execEncZero_joinHalves (h : execEncZero s = .next a) :
    execEncZero (joinHalves s b) = .next (joinHalves a b) := by
  obtain ⟨hready, hslot, rfl⟩ := execEncZero_eq_next.mp h
  exact execEncZero_eq_next.mpr ⟨hready, hslot, rfl⟩

theorem execEncData_joinHalves {v : Byte} (h : execEncData v s = .next a) :
    execEncData v (joinHalves s b) = .next (joinHalves a b) := by
  obtain ⟨hready, hv, hcnt, hwr, rfl⟩ := execEncData_eq_next.mp h
  exact execEncData_eq_next.mpr ⟨hready, hv, hcnt, hwr, rfl⟩

theorem execEncCap_joinHalves {v : Byte} (h : execEncCap v s = .next a) :
    execEncCap v (joinHalves s b) = .next (joinHalves a b) := by
  obtain ⟨hready, hv, hcnt, hwr, hslot, rfl⟩ := execEncCap_eq_next.mp h
  exact execEncCap_eq_next.mpr ⟨hready, hv, hcnt, hwr, hslot, rfl⟩

theorem execEncFinish_joinHalves (h : execEncFinish s = .next a) :
    execEncFinish (joinHalves s b) = .next (joinHalves a b) := by
  obtain ⟨hready, ⟨hjc, rfl⟩ | ⟨hjc, hslot, rfl⟩⟩ := execEncFinish_eq_next.mp h
  · exact execEncFinish_eq_next.mpr ⟨hready, .inl ⟨hjc, rfl⟩⟩
  · exact execEncFinish_eq_next.mpr ⟨hready, .inr ⟨hjc, hslot, rfl⟩⟩

theorem selectStep_enc_joinHalves (s b : State) : selectStep .enc (joinHalves s b) = selectStep .enc s := rfl

theorem unitStep_enc_joinHalves (h : unitStep .enc s = .next a) :
    unitStep .enc (joinHalves s b) = .next (joinHalves a b) := by
  obtain ⟨i, hi, hmeaning⟩ := andThen_eq_next.mp h
  refine unitStep_of_select ((selectStep_enc_joinHalves s b).trans hi) ?_
  obtain ⟨_, ⟨_, rfl⟩ | ⟨_, v, _, ⟨_, rfl⟩ | ⟨_, _, rfl⟩ | ⟨_, _, rfl⟩⟩⟩ := selectEnc_eq_next.mp hi
  · exact execEncFinish_joinHalves b hmeaning
  · exact execEncZero_joinHalves b hmeaning
  · exact execEncData_joinHalves b hmeaning
  · exact execEncCap_joinHalves b hmeaning

theorem unitTurn_enc_joinHalves (h : unitTurn .enc s = .next a) :
    unitTurn .enc (joinHalves s b) = .next (joinHalves a b) := by
  have hphase : (joinHalves s b).phaseOf .enc = s.phaseOf .enc := rfl
  obtain ⟨hb, hstep⟩ | ⟨hb, rfl⟩ := unitTurn_next h
  · rw [unitTurn_busy (hphase.trans hb), unitStep_enc_joinHalves b hstep]
  · rw [unitTurn_not_busy (hphase ▸ hb)]

end

/-! ### A step of DEC does not depend on ENC's half -/

section
variable (a : State) {s b : State}

theorem raiseMalformed_joinHalves (c : Cause) (a s : State) :
    raiseMalformed c (joinHalves a s) = joinHalves a (raiseMalformed c s) := rfl

theorem openBlock_joinHalves (n : Byte) (a s : State) :
    openBlock n (joinHalves a s) = joinHalves a (openBlock n s) := by
  by_cases hover : s.dec.inLen < s.dec.rd + n.toNat
  · rw [openBlock_of_overrun hover, ← raiseMalformed_joinHalves]
    exact openBlock_of_overrun hover
  · rw [openBlock_of_fits (Nat.le_of_not_lt hover)]
    exact openBlock_of_fits (Nat.le_of_not_lt hover)

theorem blockEnd_joinHalves (h : blockEnd s = .next b) : blockEnd (joinHalves a s) = .next (joinHalves a b) := by
  obtain ⟨hzero, hwr, rfl⟩ | ⟨hnone, rfl⟩ := blockEnd_eq_next.mp h
  · exact blockEnd_eq_next.mpr (.inl ⟨hzero, hwr, rfl⟩)
  · exact blockEnd_eq_next.mpr (.inr ⟨hnone, rfl⟩)

theorem execBlkIllegal_joinHalves (h : execBlkIllegal s = .next b) :
    execBlkIllegal (joinHalves a s) = .next (joinHalves a b) := by
  obtain ⟨hready, rfl⟩ := execBlkIllegal_eq_next.mp h
  exact execBlkIllegal_eq_next.mpr ⟨hready, rfl⟩

theorem execBlkEmpty_joinHalves (h : execBlkEmpty s = .next b) :
    execBlkEmpty (joinHalves a s) = .next (joinHalves a b) := by
  obtain ⟨hready, ⟨hmore, hwr, rfl⟩ | ⟨hend, rfl⟩⟩ := execBlkEmpty_eq_next.mp h
  · exact execBlkEmpty_eq_next.mpr ⟨hready, .inl ⟨hmore, hwr, rfl⟩⟩
  · exact execBlkEmpty_eq_next.mpr ⟨hready, .inr ⟨hend, rfl⟩⟩

theorem execBlkShort_joinHalves {n : Byte} (h : execBlkShort n s = .next b) :
    execBlkShort n (joinHalves a s) = .next (joinHalves a b) := by
  obtain ⟨hready, hn, rfl⟩ := execBlkShort_eq_next.mp h
  exact execBlkShort_eq_next.mpr ⟨hready, hn, (openBlock_joinHalves n a s).symm⟩

theorem execBlkFull_joinHalves (h : execBlkFull s = .next b) :
    execBlkFull (joinHalves a s) = .next (joinHalves a b) := by
  obtain ⟨hready, rfl⟩ := execBlkFull_eq_next.mp h
  exact execBlkFull_eq_next.mpr ⟨hready, (openBlock_joinHalves _ a s).symm⟩

theorem execDecData_joinHalves (h : execDecData s = .next b) :
    execDecData (joinHalves a s) = .next (joinHalves a b) := by
  obtain ⟨hready, v, hread, ⟨hv, rfl⟩ | ⟨hv, hwr, ⟨hlast, hend⟩ | ⟨hmore, rfl⟩⟩⟩ := execDecData_eq_next.mp h
  · exact execDecData_eq_next.mpr ⟨hready, v, hread, .inl ⟨hv, rfl⟩⟩
  · have hend' : blockEnd (copied v (joinHalves a s)) = .next (joinHalves a b) := blockEnd_joinHalves a hend
    exact execDecData_eq_next.mpr ⟨hready, v, hread, .inr ⟨hv, hwr, .inl ⟨hlast, hend'⟩⟩⟩
  · exact execDecData_eq_next.mpr ⟨hready, v, hread, .inr ⟨hv, hwr, .inr ⟨hmore, rfl⟩⟩⟩

theorem execDecFinish_joinHalves (h : execDecFinish s = .next b) :
    execDecFinish (joinHalves a s) = .next (joinHalves a b) := by
  obtain ⟨hready, rfl⟩ := execDecFinish_eq_next.mp h
  exact execDecFinish_eq_next.mpr ⟨hready, rfl⟩

theorem lengthByte_joinHalves {n : Byte} (h : stepMeaning (decodeLengthByte n) s = .next b) :
    stepMeaning (decodeLengthByte n) (joinHalves a s) = .next (joinHalves a b) := by
  obtain ⟨_, hrow⟩ | ⟨_, hrow⟩ | ⟨_, hrow⟩ | ⟨_, hrow⟩ := decodeLengthByte_cases n <;> rw [hrow] at h ⊢
  · exact execBlkIllegal_joinHalves a h
  · exact execBlkEmpty_joinHalves a h
  · exact execBlkFull_joinHalves a h
  · exact execBlkShort_joinHalves a h

theorem selectStep_dec_joinHalves (a s : State) : selectStep .dec (joinHalves a s) = selectStep .dec s := rfl

theorem unitStep_dec_joinHalves (h : unitStep .dec s = .next b) :
    unitStep .dec (joinHalves a s) = .next (joinHalves a b) := by
  obtain ⟨i, hi, hmeaning⟩ := andThen_eq_next.mp h
  refine unitStep_of_select ((selectStep_dec_joinHalves a s).trans hi) ?_
  obtain ⟨_, ⟨_, rfl⟩ | ⟨_, _, rfl⟩ | ⟨_, _, n, _, rfl⟩⟩ := selectDec_eq_next.mp hi
  · exact execDecData_joinHalves a hmeaning
  · exact execDecFinish_joinHalves a hmeaning
  · exact lengthByte_joinHalves a hmeaning

theorem unitTurn_dec_joinHalves (h : unitTurn .dec s = .next b) :
    unitTurn .dec (joinHalves a s) = .next (joinHalves a b) := by
  have hphase : (joinHalves a s).phaseOf .dec = s.phaseOf .dec := rfl
  obtain ⟨hb, hstep⟩ | ⟨hb, rfl⟩ := unitTurn_next h
  · rw [unitTurn_busy (hphase.trans hb), unitStep_dec_joinHalves a hstep]
  · rw [unitTurn_not_busy (hphase ▸ hb)]

end

/-! ### The two orders of the two turns -/

/-- Settles O48: both orders end in ENC's half of `a` with DEC's half of `b`, since each unit changes only its own
half and moves alike whatever the other half is. -/
theorem unitMovesCommute : Obligations.UnitMovesCommute := by
  unfold Obligations.UnitMovesCommute
  intro s a b ha hb
  refine ⟨joinHalves a b, ?_, ?_⟩
  · have hdec := unitTurn_dec_joinHalves a hb
    rwa [joinHalves_of_encFrame (encFrame_unitTurn ha)] at hdec
  · have henc := unitTurn_enc_joinHalves b ha
    rwa [joinHalves_of_decFrame (decFrame_unitTurn hb)] at henc

end Sys2Proof.Machine
end

section
/-! The reset event, and a START on a BUSY unit (60_exceptions.md R122, 70_reset_and_hazards.md R136, R138, R148). -/

namespace Sys2Proof.Machine

/-! ### What an interrupted unit leaves (R138) -/

theorem voidOut_space_of_ne {u : UnitId} {sp : Space} (h : sp ≠ outSpace u) (n : Nat) (s : State) :
    (voidOut u n s).space sp = s.space sp := by
  rw [voidOut, space_setDraws, space_setSpace_other s h]

theorem agreeFrom_voidOut (u : UnitId) (n : Nat) (s : State) :
    Memory.AgreeFrom n (s.space (outSpace u)) ((voidOut u n s).space (outSpace u)) := by
  rw [voidOut, space_setDraws, space_setSpace_same]
  exact agreeFrom_fill _ _ _

theorem abandon_enc_of_busy {s : State} (h : s.enc.phase = .busy) :
    abandon .enc s = voidOut .enc (encBound s.enc.inLen) s := if_pos h

theorem abandon_dec_of_busy {s : State} (h : s.dec.phase = .busy) :
    abandon .dec s = voidOut .dec (s.dec.inLen - 1) s := if_pos h

theorem abandon_of_not_busy {u : UnitId} {s : State} (h : s.phaseOf u ≠ .busy) : abandon u s = s := if_neg h

/-- A reset leaves the output of a unit alone or fills its first bytes with free values. -/
theorem abandon_cases (u : UnitId) (s : State) : abandon u s = s ∨ ∃ n, abandon u s = voidOut u n s := by
  by_cases hb : s.phaseOf u = .busy
  · cases u with
    | enc => exact .inr ⟨_, abandon_enc_of_busy hb⟩
    | dec => exact .inr ⟨_, abandon_dec_of_busy hb⟩
  · exact .inl (abandon_of_not_busy hb)

theorem abandon_space_of_ne {u : UnitId} {sp : Space} (h : sp ≠ outSpace u) (s : State) :
    (abandon u s).space sp = s.space sp := by
  obtain hs | ⟨n, hs⟩ := abandon_cases u s <;> rw [hs]
  exact voidOut_space_of_ne h n s

@[simp] theorem abandon_dec (u : UnitId) (s : State) : (abandon u s).dec = s.dec := by
  obtain hs | ⟨n, hs⟩ := abandon_cases u s <;> rw [hs]
  exact voidOut_dec u n s

@[simp] theorem abandon_turns (u : UnitId) (s : State) : (abandon u s).turns = s.turns := by
  obtain hs | ⟨n, hs⟩ := abandon_cases u s <;> rw [hs]
  exact voidOut_turns u n s

@[simp] theorem abandon_maxLen (u : UnitId) (s : State) : (abandon u s).maxLen = s.maxLen := by
  obtain hs | ⟨n, hs⟩ := abandon_cases u s <;> rw [hs]
  exact voidOut_maxLen u n s

theorem agreeFrom_abandon_enc (s : State) :
    Memory.AgreeFrom (encBound s.enc.inLen) s.encOut (abandon .enc s).encOut := by
  by_cases hb : s.enc.phase = .busy
  · rw [abandon_enc_of_busy hb]
    exact agreeFrom_voidOut .enc _ s
  · rw [abandon_of_not_busy (u := .enc) hb]
    exact Memory.AgreeFrom.refl _ _

theorem agreeFrom_abandon_dec (s : State) :
    Memory.AgreeFrom (s.dec.inLen - 1) s.decOut (abandon .dec s).decOut := by
  by_cases hb : s.dec.phase = .busy
  · rw [abandon_dec_of_busy hb]
    exact agreeFrom_voidOut .dec _ s
  · rw [abandon_of_not_busy (u := .dec) hb]
    exact Memory.AgreeFrom.refl _ _

/-! ### The state after the reset event (R136) -/

theorem resetEvent_space (s : State) (sp : Space) :
    (resetEvent s).space sp = (abandon .dec (abandon .enc s)).space sp := by
  rw [resetEvent, space_setDraws, space_setDec, space_setEnc]

@[simp] theorem resetEvent_turns (s : State) : (resetEvent s).turns = s.turns :=
  (abandon_turns .dec _).trans (abandon_turns .enc s)

@[simp] theorem resetEvent_maxLen (s : State) : (resetEvent s).maxLen = s.maxLen :=
  (abandon_maxLen .dec _).trans (abandon_maxLen .enc s)

/-- A space into which no unit writes is unchanged. -/
theorem resetEvent_space_of_ne {sp : Space} (henc : sp ≠ .encOut) (hdec : sp ≠ .decOut) (s : State) :
    (resetEvent s).space sp = s.space sp := by
  rw [resetEvent_space, abandon_space_of_ne hdec, abandon_space_of_ne henc]

/-- DEC's part of the event spares ENC's output. -/
theorem resetEvent_encOut (s : State) : (resetEvent s).encOut = (abandon .enc s).encOut :=
  (resetEvent_space s .encOut).trans (abandon_space_of_ne (by decide) _)

theorem resetEvent_decOut (s : State) : (resetEvent s).decOut = (abandon .dec (abandon .enc s)).decOut :=
  resetEvent_space s .decOut

/-- ENC's part of the event spares DEC's output. -/
theorem abandon_enc_decOut (s : State) : (abandon .enc s).decOut = s.decOut :=
  abandon_space_of_ne (sp := .decOut) (by decide) s

theorem resetEvent_encOut_of_not_busy {s : State} (h : s.enc.phase ≠ .busy) : (resetEvent s).encOut = s.encOut := by
  rw [resetEvent_encOut, abandon_of_not_busy (u := .enc) h]

theorem resetEvent_decOut_of_not_busy {s : State} (h : s.dec.phase ≠ .busy) : (resetEvent s).decOut = s.decOut := by
  rw [resetEvent_decOut, abandon_of_not_busy (u := .dec) (by rwa [phaseOf_dec, abandon_dec]), abandon_enc_decOut]

theorem agreeFrom_resetEvent_encOut (s : State) :
    Memory.AgreeFrom (encBound s.enc.inLen) s.encOut (resetEvent s).encOut := by
  rw [resetEvent_encOut]
  exact agreeFrom_abandon_enc s

theorem agreeFrom_resetEvent_decOut (s : State) :
    Memory.AgreeFrom (s.dec.inLen - 1) s.decOut (resetEvent s).decOut := by
  have h := agreeFrom_abandon_dec (abandon .enc s)
  rwa [abandon_dec, abandon_enc_decOut, ← resetEvent_decOut] at h

theorem takeTurn_reset (s : State) : takeTurn (.host .reset) s = .next (resetEvent s) := rfl

/-- Settles O34: the step is the reset event on the state with the turn consumed; each unit's part of the event
touches only the writable range of its own output, and that only while the unit is BUSY. -/
theorem resetEventClearsBothUnits : Obligations.ResetEventClearsBothUnits := by
  unfold Obligations.ResetEventClearsBothUnits
  intro s ts hts
  have hstep : step s = .next (resetEvent (s.setTurns ts)) := by rw [step_of_turns_cons hts, takeTurn_reset]
  refine ⟨_, hstep, rfl, rfl, rfl, rfl, rfl, rfl, rfl, ?encIn, ?decIn, resetEvent_turns _, resetEvent_maxLen _,
    fun henc => resetEvent_encOut_of_not_busy (s := s.setTurns ts) henc,
    fun hdec => resetEvent_decOut_of_not_busy (s := s.setTurns ts) hdec,
    agreeFrom_resetEvent_encOut (s.setTurns ts), agreeFrom_resetEvent_decOut (s.setTurns ts)⟩
  case encIn => exact resetEvent_space_of_ne (sp := .encIn) (by decide) (by decide) _
  case decIn => exact resetEvent_space_of_ne (sp := .decIn) (by decide) (by decide) _

/-! ### A START on a BUSY unit (R122, R148) -/

theorem onStart_of_busy {u : UnitId} {s : State} (h : s.phaseOf u = .busy) (len cap : Nat) (go : State → Result) :
    onStart u len cap go s = .next s := if_pos h

/-- Settles O26: the START and the operation of a unit share the test of `onStart`, which comes before all others. -/
theorem startOnBusyUnitHasNoEffect : Obligations.StartOnBusyUnitHasNoEffect := by
  unfold Obligations.StartOnBusyUnitHasNoEffect
  intro s len cap
  constructor
  · intro hb
    rw [exec_encStart_eq, exec_encode_eq]
    exact ⟨onStart_of_busy (u := .enc) hb _ _ _, onStart_of_busy (u := .enc) hb _ _ _⟩
  · intro hb
    rw [exec_decStart_eq, exec_decode_eq]
    exact ⟨onStart_of_busy (u := .dec) hb _ _ _, onStart_of_busy (u := .dec) hb _ _ _⟩

end Sys2Proof.Machine
end
